-- ==== Sys2Proof/Word.lean ====
section
/-! DEFINITION. The words that cross the block's boundary: sample, byte, control word, STROBE word, and the host's
words that a decoder reads. -/

namespace Sys2Proof

/-- SAMPLE format, 64 bits (30_encoding.md R45). -/
abbrev Sample := BitVec 64

/-- An Encoded Byte, 8 bits (30_encoding.md R47, R49). -/
abbrev Byte := BitVec 8

/-- The CTRL word `{INV, ENC}`, 2 bits (30_encoding.md R51). -/
abbrev Ctrl := BitVec 2

/-- The 16-bit PCM wire, two's complement (30_encoding.md R46). -/
abbrev Pcm16 := BitVec 16

/-- What the host drives on the input ports at one rising clock edge (20_memory.md R29). `strobe` is the STROBE word
`{RST, CTRL_WE, IN_VALID, OUT_READY}`, `RST` in bit 3 (30_encoding.md R54). -/
structure Edge where
  strobe    : BitVec 4
  ctrlWdata : Ctrl
  inSample  : Sample
  deriving DecidableEq, Repr

/-- A word of the host, in one of the table's two formats. `strobeWord` is a clock edge. `ctrlWord c b` is an
operation row: sample `b` offered for the operation that the CTRL word `c` selects (30_encoding.md R51); notes/assumptions/6.md. -/
inductive HostWord where
  | ctrlWord (c : Ctrl) (b : Sample)
  | strobeWord (e : Edge)
  deriving DecidableEq, Repr

end Sys2Proof
end

