-- ==== Sys2Proof/Config.lean ====
section
/-! DEFINITION. The open parameters of the spec (00_scope.md R9) and the values it leaves unspecified
(93_implementation_defined.md U2 to U5), the latter as constants with no body: nothing can be proved of their values. -/

namespace Sys2Proof.Config

/-- `P_ROUND_TIES`: the tie rule of `round` in LINQ8 (40_linear8.md R59, decision D5). -/
inductive Ties where
  | even
  | away
  deriving DecidableEq, Repr

/-- The model arguments of 00_scope.md R9, fixed for the model's lifetime (10_state.md R24). -/
structure Params where
  roundTies    : Ties
  linearInvert : Bool
  deriving DecidableEq, Repr

/-- The defaults R9 states: `P_ROUND_TIES = even`, `P_LINEAR_INVERT = false`. -/
def defaults : Params := { roundTies := .even, linearInvert := false }

/-- The byte the hardware loads for a non-finite sample, per draw (U2, 60_exceptions.md R104); notes/assumptions/3.md. -/
opaque freePushByte : Nat → Byte

/-- The CTRL value a PUSH computes under while CTRL holds none, per draw (U3, 60_exceptions.md R105); notes/assumptions/2.md. -/
opaque freePushCtrl : Nat → Ctrl

/-- What `CTRL_Q` shows while CTRL holds no value (U4, 20_memory.md R29); notes/assumptions/9.md. -/
opaque freeCtrlQ : Nat → Ctrl

/-- What `OUT_BYTE` shows while `OUT_VALID = 0`, per draw count and number of bytes handed over (U5, 10_state.md R16);
notes/assumptions/9.md. -/
opaque freeOutByte : Nat → Nat → Byte

end Sys2Proof.Config
end

