-- ==== Sys2Proof/Machine/State.lean ====
section
/-! DEFINITION. The state of the block (10_state.md sections 2 to 4) as plain data, and the state after reset. -/

namespace Sys2Proof.Machine

/-- The model faults of 60_exceptions.md. Both are raised by PUSH (and by the operation a PUSH performs), are RECORDED in
`State.raised`, and do not stop the machine, because the spec gives the hardware's effect for both; going on with a free
value is safe. No step answers `.fault`. -/
inductive Fault where
  /-- R104: the accepted sample `b` is an infinity or a NaN. Raised by PUSH; the byte is a free value (safe). -/
  | nonFiniteSample (b : Sample)
  /-- R105: a PUSH while CTRL holds no value. Raised by PUSH; the CTRL value used is a free value (safe). -/
  | ctrlUnwritten
  deriving DecidableEq, Repr

/-- Why a step could answer with no meaning. -/
inductive Refusal where
  /-- Answered by an arm of `exec` for an instruction not modelled yet; no arm does so now. Safe: the machine stops. -/
  | notModelled (mnemonic : String)
  deriving DecidableEq, Repr

/-- Where a run began: what R120 of 70_reset_and_hazards.md has to know of the CFGWR that began it; notes/assumptions/16.md. -/
structure RunMark where
  /-- `n_in` at that CFGWR. -/
  pushes        : Nat
  /-- `n_out` at that CFGWR. -/
  pops          : Nat
  /-- Whether the holding register was empty at that CFGWR. -/
  registerEmpty : Bool
  deriving DecidableEq, Repr

/-- The machine's state. -/
structure State where
  /-- `CTRL` (10_state.md R15): `none` while it holds no value (R23), else `{INV, ENC}`. -/
  ctrl      : Option Ctrl
  /-- The output holding register (R16): `some b` is `OUT_VALID = 1, OUT_BYTE = b` (10_state.md section 4). -/
  out       : Option Byte
  /-- `FAULT`, sticky (R17). -/
  fault     : Bool
  /-- Ghost `IN_HIST` (R19): CTRL value and sample of every PUSH accepted since reset, oldest first. -/
  inHist    : List (Ctrl × Sample)
  /-- Ghost `OUT_HIST` (R19): bytes handed over since reset, oldest first. -/
  outHist   : List Byte
  /-- The output stream (20_memory.md R28): every byte `OutPut` has appended; RESET takes none back. -/
  outStream : List Byte
  /-- Ghost: the faults raised since reset, oldest first (44_operations.md R95); notes/assumptions/4.md. -/
  raised    : List Fault
  /-- Ghost: where the last CFGWR since reset began a run, `none` while there has been none (70_reset_and_hazards.md R120,
  R121); notes/assumptions/16.md. -/
  run       : Option RunMark
  /-- `P_ROUND_TIES` and `P_LINEAR_INVERT` (00_scope.md R9), written by no step; notes/assumptions/5.md. -/
  params    : Config.Params
  /-- The model's own: how many unspecified values have been drawn; notes/assumptions/11.md. -/
  draws     : Nat
  /-- The model's own: the host's coming words, next first (44_operations.md R93); notes/assumptions/1.md. -/
  script    : List HostWord
  deriving DecidableEq, Repr

/-- The machine right after reset (10_state.md R23), the parameters at the spec's defaults (00_scope.md R9), nothing
asked by the host. -/
def State.reset : State where
  ctrl      := none
  out       := none
  fault     := false
  inHist    := []
  outHist   := []
  outStream := []
  raised    := []
  run       := none
  params    := Config.defaults
  draws     := 0
  script    := []

end Sys2Proof.Machine
end

