-- ==== Sys2Proof/Machine/Operands.lean ====
section
/-! DEFINITION. The operand forms: binary64 decoding and the constant product (00_scope.md R12), the integer primitives
(00_scope.md R11), the fields of CTRL (10_state.md R15). -/

namespace Sys2Proof.Machine

/-- `CTRL.ENC`, bit 0: 1 is u-law (10_state.md R15). -/
def encField (c : Ctrl) : Bool := c.getLsbD 0

/-- `CTRL.INV`, bit 1: 1 is on (10_state.md R15). -/
def invField (c : Ctrl) : Bool := c.getLsbD 1

/-- `clamp(v, lo, hi)` (R11). -/
def clamp (v lo hi : Int) : Int := if v < lo then lo else if v > hi then hi else v

/-- `hsb(x)`: index of the most significant set bit, -1 for 0 (R11). -/
def hsb (x : Nat) : Int := if x = 0 then -1 else (Nat.log2 x : Int)

/-- `bitlength(x) = hsb(x) + 1` (R12). -/
def bitLength (x : Nat) : Nat := (hsb x + 1).toNat

/-- `sg = b[63]` (R12, 30_encoding.md R45). -/
def signOf (b : Sample) : Bool := b.getLsbD 63

/-- `e = b[62:52]` (R12). -/
def exponentOf (b : Sample) : Nat := (b.extractLsb' 52 11).toNat

/-- `isfinite64(b) = (e != 0x7FF)` (R12). -/
def isFinite64 (b : Sample) : Bool := exponentOf b != 0x7FF

/-- `f = b[51:0]` (R12). -/
def fractionOf (b : Sample) : Nat := (b.extractLsb' 0 52).toNat

/-- `M` of R12: the integer significand of a finite pattern. -/
def significandOf (b : Sample) : Nat :=
  if exponentOf b = 0 then fractionOf b else 2 ^ 52 + fractionOf b

/-- `E` of R12: the power of two of a finite pattern. -/
def scaleOf (b : Sample) : Int :=
  if exponentOf b = 0 then -1074 else (exponentOf b : Int) - 1075

/-- The triple `(sg, N, X)` of R12, meaning `(-1)^sg * N * 2^X`. -/
structure Product where
  neg : Bool
  mag : Nat
  exp : Int
  deriving DecidableEq, Repr

/-- `Q >> L`, rounded to nearest, ties to even (R12). -/
def shiftRoundEven (Q L : Nat) : Nat :=
  let q := Q >>> L
  if L = 0 then q
  else
    let r := Q % 2 ^ L
    let half := 2 ^ (L - 1)
    if r > half ∨ (r = half ∧ q % 2 = 1) then q + 1 else q

/-- `fmulc(b, C)`: the binary64 product of a finite pattern and a constant, kept unbounded (R12). -/
def fmulc (b : Sample) (C : Nat) : Product :=
  let Q := significandOf b * C
  let L := bitLength Q - 53
  { neg := signOf b, mag := shiftRoundEven Q L, exp := scaleOf b + L }

/-- A magnitude under the sign of a product. -/
def Product.signed (p : Product) (m : Nat) : Int := if p.neg then -(m : Int) else m

/-- `trunc(P)`: toward zero (R11, 41_norm16.md R63, R64). -/
def Product.trunc (p : Product) : Int :=
  p.signed (if 0 ≤ p.exp then p.mag <<< p.exp.toNat else p.mag >>> (-p.exp).toNat)

/-- `round_int(P, ties)`: to nearest, ties as the parameter says (R11, 40_linear8.md R57). `up` is the magnitude in half
units, so it is odd when the part below the point is a half or more, and exact when that part is just a half; R57 lists the
same with `fr` and `half` (Laws/Operands.lean, `roundInt_listing`), which for a sample near zero are numbers of a thousand bits. -/
def Product.roundInt (p : Product) (ties : Config.Ties) : Int :=
  if 0 ≤ p.exp then p.signed (p.mag <<< p.exp.toNat)
  else
    let sh := (-p.exp).toNat
    let ip := p.mag >>> sh
    let up := p.mag >>> (sh - 1)
    if up % 2 = 1 ∧ (p.mag ≠ up <<< (sh - 1) ∨ ties = .away ∨ ip % 2 = 1) then p.signed (ip + 1) else p.signed ip

/-- `val64(b)` of a finite pattern, an exact rational (R12). -/
def val64 (b : Sample) : ℚ :=
  (if signOf b then -1 else 1) * (significandOf b : ℚ) * (2 : ℚ) ^ scaleOf b

/-- The real value of a triple, an exact rational (R12). -/
def Product.value (p : Product) : ℚ :=
  (if p.neg then -1 else 1) * (p.mag : ℚ) * (2 : ℚ) ^ p.exp

end Sys2Proof.Machine
end

