-- ==== Sys2Proof/Syntax.lean ====
section
/-! DEFINITION. The instructions: one constructor per row of spec/opcode_table.json. -/

namespace Sys2Proof

/-- The four per-sample operations (44_operations.md section 3), each on the sample it is given, and the four host
actions (30_encoding.md R54). -/
inductive Instr where
  /-- LIN8, `CTRL = 0b00` (R98). -/
  | lin8 (b : Sample)
  /-- ULAW, `CTRL = 0b01` (R100). -/
  | ulaw (b : Sample)
  /-- LIN8I, `CTRL = 0b10` (R99). -/
  | lin8i (b : Sample)
  /-- ULAWI, `CTRL = 0b11` (R101). -/
  | ulawi (b : Sample)
  /-- RESET, strobe `1000` (R117). -/
  | reset
  /-- CFGWR, strobe `0100`, with `CTRL_WDATA = v` (R97). -/
  | cfgwr (v : Ctrl)
  /-- PUSH, strobe `0010`, with `IN_SAMPLE = b` (R95). -/
  | push (b : Sample)
  /-- POP, strobe `0001` (R96). -/
  | pop
  deriving DecidableEq, Repr

end Sys2Proof
end

