-- ==== Sys2Proof/WellFormed.lean ====
section
/-! DEFINITION. The domain the source defines its functions on: finite samples (30_encoding.md R52), and words in the
transaction-level form (30_encoding.md R54). Neither is a condition for a step to run: an instruction outside the domain
has its meaning too. -/

namespace Sys2Proof

/-- The instruction's sample, where it has one, is inside the operations' domain (R52). RESET and POP have no operand
and every CTRL value is legal, so these three have no check. -/
def Instr.wellFormed : Instr → Bool
  | .lin8 b | .ulaw b | .lin8i b | .ulawi b | .push b => Machine.isFinite64 b
  | .reset | .cfgwr _ | .pop => true

/-- A word in the transaction-level form: exactly one strobe active (R54); an operation row has no strobe of its own. -/
def HostWord.wellFormed : HostWord → Bool
  | .ctrlWord _ _ => true
  | .strobeWord e => (List.range 4).countP (fun k => e.strobe.getLsbD k) == 1

end Sys2Proof
end

