-- ==== Sys2Proof/Decode.lean ====
section
/-! DEFINITION. From words to instructions and back (30_encoding.md R51, R54; 20_memory.md R31, R33), and the numbering
of spec/opcode_table.json. -/

namespace Sys2Proof

/-- Why a word is not one transaction-level action (R54). -/
inductive Reject where
  /-- Strobe `0000`: an idle cycle. -/
  | idle
  /-- More than one strobe active: a clock-level edge, which is several actions (20_memory.md R33). -/
  | severalStrobes
  deriving DecidableEq, Repr

/-- The operation row of a CTRL word, on a sample (R51). -/
def operationOf (c : Ctrl) (b : Sample) : Instr :=
  if c = 0b00#2 then .lin8 b
  else if c = 0b01#2 then .ulaw b
  else if c = 0b10#2 then .lin8i b
  else .ulawi b

/-- The transaction-level decoder (R51, R54). -/
def decode : HostWord → Except Reject Instr
  | .ctrlWord c b => .ok (operationOf c b)
  | .strobeWord e =>
    if e.strobe = 0b1000#4 then .ok .reset
    else if e.strobe = 0b0100#4 then .ok (.cfgwr e.ctrlWdata)
    else if e.strobe = 0b0010#4 then .ok (.push e.inSample)
    else if e.strobe = 0b0001#4 then .ok .pop
    else if e.strobe = 0b0000#4 then .error .idle
    else .error .severalStrobes

/-- The word that spells an instruction, the ports it does not use driven 0 (R51, R54). -/
def encode : Instr → HostWord
  | .lin8 b  => .ctrlWord 0b00#2 b
  | .ulaw b  => .ctrlWord 0b01#2 b
  | .lin8i b => .ctrlWord 0b10#2 b
  | .ulawi b => .ctrlWord 0b11#2 b
  | .reset   => .strobeWord { strobe := 0b1000#4, ctrlWdata := 0, inSample := 0 }
  | .cfgwr v => .strobeWord { strobe := 0b0100#4, ctrlWdata := v, inSample := 0 }
  | .push b  => .strobeWord { strobe := 0b0010#4, ctrlWdata := 0, inSample := b }
  | .pop     => .strobeWord { strobe := 0b0001#4, ctrlWdata := 0, inSample := 0 }

/-- `RST`, bit 3 of the STROBE word (R54). -/
def Edge.rst (e : Edge) : Bool := e.strobe.getLsbD 3

/-- `CTRL_WE`, bit 2 (R54). -/
def Edge.ctrlWe (e : Edge) : Bool := e.strobe.getLsbD 2

/-- `IN_VALID`, bit 1 (R54). -/
def Edge.inValid (e : Edge) : Bool := e.strobe.getLsbD 1

/-- `OUT_READY`, bit 0 (R54). -/
def Edge.outReady (e : Edge) : Bool := e.strobe.getLsbD 0

/-- The clock-level reading of a word: `RST = 1` is RESET alone (R118); otherwise the actions asked for, in the order
POP, PUSH, CFGWR (R33). Whether an action is enabled is its meaning's own check. -/
def actions : HostWord → List Instr
  | .ctrlWord c b => [operationOf c b]
  | .strobeWord e =>
    if e.rst then [.reset]
    else (if e.outReady then [.pop] else []) ++ (if e.inValid then [.push e.inSample] else [])
      ++ (if e.ctrlWe then [.cfgwr e.ctrlWdata] else [])

/-- The word that opcode-table bits `w` of a row of `nbits` bits stand for, the ports that the table gives no bits driven
0. The table numbers its two formats (widths 2 and 4) over the same bits; where `nbits` is a whole byte, which does not
tell them apart, the byte is read as the first row of the table it matches (notes/assumptions/8.md). -/
def tableWord (nbits w : Nat) : Option HostWord :=
  let asCtrl := HostWord.ctrlWord (BitVec.ofNat 2 w) 0
  let asStrobe := HostWord.strobeWord { strobe := BitVec.ofNat 4 w, ctrlWdata := 0, inSample := 0 }
  if nbits ≤ 2 then (if w < 4 then some asCtrl else none)
  else if nbits ≤ 4 then (if w < 16 then some asStrobe else none)
  else if w < 4 then some asCtrl
  else if w < 16 then some asStrobe
  else none

/-- The instruction the decoder reads from bits numbered as spec/opcode_table.json numbers them. -/
def decodeTableWord (nbits w : Nat) : Option Instr :=
  match tableWord nbits w with
  | none => none
  | some hw =>
    match decode hw with
    | .ok i => some i
    | .error _ => none

end Sys2Proof
end

