-- ==== Sys2Proof/Machine/Bitinv.lean ====
section
/-! DEFINITION. Unit BITINV (43_bitinv.md). -/

namespace Sys2Proof.Machine

/-- `BITINV(code) = (~code) & 0xFF` (R89). -/
def bitinv (code : Byte) : Byte := ~~~code &&& 0xFF#8

end Sys2Proof.Machine
end

