-- ==== Sys2Proof/Machine/Compand.lean ====
section
/-! DEFINITION. Unit COMPAND (42_ulaw_compand.md). -/

namespace Sys2Proof.Machine

/-- `magnitude`, on unbounded integers: `BIAS - pcm16 - 1` below zero (R74), `BIAS + pcm16` otherwise (R75). -/
def magnitude (p : Pcm16) : Nat :=
  if p.toInt < 0 then (132 - p.toInt - 1).toNat else (132 + p.toInt).toNat

/-- `mask`: `0x7F` below zero (R74), `0xFF` otherwise (R75). -/
def signMask (p : Pcm16) : Nat := if p.toInt < 0 then 0x7F else 0xFF

/-- `segment = hsb(magnitude | 0xFF) - 7` (R77). -/
def segment (m : Nat) : Nat := (hsb (m ||| 0xFF) - 7).toNat

/-- `mantissa = (magnitude >> (segment + 3)) & 0xF` (R80). -/
def mantissa (m : Nat) : Nat := (m >>> (segment m + 3)) &&& 0xF

/-- The pre-mask word `u`: saturated (R79) or `(segment << 4) | mantissa` (R80). -/
def premask (m : Nat) : Nat :=
  if segment m ≥ 8 then 0x7F else (segment m <<< 4) ||| mantissa m

/-- `COMPAND(pcm16)` (R73). -/
def compand (p : Pcm16) : Byte :=
  BitVec.ofNat 8 ((premask (magnitude p) ^^^ signMask p) &&& 0xFF)

end Sys2Proof.Machine
end

