-- ==== Sys2Proof/Machine/Linear8.lean ====
section
/-! DEFINITION. Unit LINQ8 (40_linear8.md). -/

namespace Sys2Proof.Machine

/-- `LINQ8(b) = clamp(round_int(fmulc(b, 127)) + 128, 0, 255)` (R57). -/
def linq8 (ties : Config.Ties) (b : Sample) : Byte :=
  BitVec.ofInt 8 (clamp ((fmulc b 127).roundInt ties + 128) 0 255)

end Sys2Proof.Machine
end

