-- ==== Sys2Proof/Machine/Norm16.lean ====
section
/-! DEFINITION. Unit NORM16 (41_norm16.md). -/

namespace Sys2Proof.Machine

/-- `NORM16(b) = clamp(trunc(fmulc(b, 32767)), -32768, 32767)` (R63). -/
def norm16 (b : Sample) : Pcm16 :=
  BitVec.ofInt 16 (clamp (fmulc b 32767).trunc (-32768) 32767)

end Sys2Proof.Machine
end

