-- ==== Sys2Proof/Machine/Flags.lean ====
section
/-! DEFINITION. The block's one flag, FAULT, and which model fault a PUSH reports (10_state.md R17, 60_exceptions.md
R104, R105, R110). -/

namespace Sys2Proof.Machine

/-- `FAULT` after sample `b` is accepted: set by a non-finite one, sticky (R17, R104), whatever CTRL is (R110). -/
def faultAfter (fault : Bool) (b : Sample) : Bool := fault || !isFinite64 b

/-- The model fault a PUSH of `b` reports: `CtrlUnwritten` is tested first (44_operations.md R95, R110). -/
def pushCause (ctrl : Option Ctrl) (b : Sample) : Option Fault :=
  match ctrl with
  | none => some .ctrlUnwritten
  | some _ => if isFinite64 b then none else some (.nonFiniteSample b)

end Sys2Proof.Machine
end

