-- ==== Sys2Proof/Machine/Ops.lean ====
section
/-! DEFINITION. The named operations over the registers, the two streams and the histories. -/

namespace Sys2Proof.Machine

/-- `OUT_VALID` (10_state.md R16). -/
def State.outValid (s : State) : Bool := s.out.isSome

/-- `n_in` (10_state.md R14, R19). -/
def State.nIn (s : State) : Nat := s.inHist.length

/-- `n_out` (10_state.md R14, R19). -/
def State.nOut (s : State) : Nat := s.outHist.length

/-- Reading CTRL at a PUSH: its value, or a free one while it holds none (10_state.md R15, 60_exceptions.md R105);
notes/assumptions/2.md. -/
def State.selectedCtrl (s : State) : Ctrl :=
  match s.ctrl with
  | some c => c
  | none => Config.freePushCtrl s.draws

/-- `InTake()` and its history: sample `b` leaves the input stream, accepted under `c` (20_memory.md R26, 44_operations.md R95). -/
def State.inTake (s : State) (c : Ctrl) (b : Sample) : State :=
  { s with inHist := s.inHist ++ [(c, b)] }

/-- `OUT_BYTE <- v; OUT_VALID <- 1` (44_operations.md R95). -/
def State.loadOut (s : State) (v : Byte) : State := { s with out := some v }

/-- `OutPut(OUT_BYTE)` and its history, and `OUT_VALID <- 0` (20_memory.md R28, 44_operations.md R96). -/
def State.handOver (s : State) (v : Byte) : State :=
  { s with outStream := s.outStream ++ [v], outHist := s.outHist ++ [v], out := none }

/-- The mark of a run that begins here (70_reset_and_hazards.md R120). -/
def State.markHere (s : State) : RunMark := { pushes := s.nIn, pops := s.nOut, registerEmpty := !s.outValid }

/-- `CTRL <- v`, which also begins a new run, even when CTRL holds `v` already (44_operations.md R97). -/
def State.writeCtrl (s : State) (v : Ctrl) : State := { s with ctrl := some v, run := some s.markHere }

/-- Fault entry at the acceptance of `b` (60_exceptions.md R104, R105, R107): FAULT is set for a non-finite sample, the
reported cause is recorded, and nothing else changes: nothing is saved, no mode changes, no control goes anywhere. A
cause goes with a free value, so the draw counter moves on. There is no return from a fault: only RESET clears FAULT (R112). -/
def State.enterFault (s : State) (b : Sample) : State :=
  { s with
    fault  := faultAfter s.fault b
    raised := s.raised ++ (pushCause s.ctrl b).toList
    draws  := if (pushCause s.ctrl b).isSome then s.draws + 1 else s.draws }

/-- The effect of RESET (70_reset_and_hazards.md R117, 10_state.md R23). The parameters, the bytes the host already has
and the host's coming words are not in the block; the unspecified values are drawn anew. -/
def State.clear (s : State) : State :=
  { s with
    ctrl := none, out := none, fault := false, inHist := [], outHist := [], raised := [], run := none
    draws := s.draws + 1 }

/-- The host's next word, and the state with it taken from the script (notes/assumptions/1.md). -/
def State.fetch (s : State) : Option (HostWord × State) :=
  match s.script with
  | [] => none
  | w :: rest => some (w, { s with script := rest })

end Sys2Proof.Machine
end

