-- ==== Sys2Proof/Machine/Operations.lean ====
section
/-! DEFINITION. The four operations (44_operations.md R94, R98 to R101): their bytes, the acceptance of a sample under a
CTRL value, and the meanings of the four operation rows. -/

namespace Sys2Proof.Machine

/-- `LIN8(b) = LINQ8(b)` (R98). -/
def lin8Byte (P : Config.Params) (b : Sample) : Byte := linq8 P.roundTies b

/-- `LIN8I(b)`: `LINQ8(b)`, inverted only under `P_LINEAR_INVERT` (R99). -/
def lin8iByte (P : Config.Params) (b : Sample) : Byte :=
  if P.linearInvert then bitinv (linq8 P.roundTies b) else linq8 P.roundTies b

/-- `ULAW(b) = COMPAND(NORM16(b))` (R100). -/
def ulawByte (b : Sample) : Byte := compand (norm16 b)

/-- `ULAWI(b) = BITINV(COMPAND(NORM16(b)))` (R101). -/
def ulawiByte (b : Sample) : Byte := bitinv (compand (norm16 b))

/-- `Op(ctrl, b)` of R94, for finite `b`. -/
def opByte (P : Config.Params) (c : Ctrl) (b : Sample) : Byte :=
  if encField c then (if invField c then ulawiByte b else ulawByte b)
  else (if invField c then lin8iByte P b else lin8Byte P b)

/-- `Encode(ctrl, b)` of R94: the byte and `nonfinite`; `free` is the unspecified byte of a non-finite sample. -/
def encodeSample (P : Config.Params) (c : Ctrl) (b : Sample) (free : Byte) : Byte × Bool :=
  if isFinite64 b then (opByte P c b, false) else (free, true)

/-- What an accepted sample does (R95, 60_exceptions.md R104, R105): it leaves the input stream, its byte under `c` is
loaded, and a fault is entered where there is one. -/
def State.accept (s : State) (c : Ctrl) (b : Sample) : State :=
  ((s.inTake c b).loadOut (encodeSample s.params c b (Config.freePushByte s.draws)).1).enterFault b

/-- An operation row: sample `b` is accepted when the register is empty and CTRL selects `c`; otherwise this operation
does not happen and nothing changes (R95, 60_exceptions.md R106 d; notes/assumptions/6.md). -/
def State.operate (s : State) (c : Ctrl) (b : Sample) : State :=
  if s.outValid = false ∧ s.ctrl = some c then s.accept c b else s

/-- LIN8 (R98). -/
def execLin8 (b : Sample) (s : State) : Host.Outcome State Fault Refusal := .next (s.operate 0b00#2 b)

/-- ULAW (R100). -/
def execUlaw (b : Sample) (s : State) : Host.Outcome State Fault Refusal := .next (s.operate 0b01#2 b)

/-- LIN8I (R99). -/
def execLin8i (b : Sample) (s : State) : Host.Outcome State Fault Refusal := .next (s.operate 0b10#2 b)

/-- ULAWI (R101). -/
def execUlawi (b : Sample) (s : State) : Host.Outcome State Fault Refusal := .next (s.operate 0b11#2 b)

end Sys2Proof.Machine
end

