-- ==== Sys2Proof/Machine/HostActions.lean ====
section
/-! DEFINITION. The host actions RESET (70_reset_and_hazards.md R117), CFGWR, PUSH and POP (44_operations.md R95 to R97). -/

namespace Sys2Proof.Machine

/-- RESET: always enabled (R117). -/
def execReset (s : State) : Host.Outcome State Fault Refusal := .next s.clear

/-- CFGWR: always enabled (R97). -/
def execCfgwr (v : Ctrl) (s : State) : Host.Outcome State Fault Refusal := .next (s.writeCtrl v)

/-- PUSH: while `OUT_VALID = 1` it is not enabled and nothing happens (R95, 60_exceptions.md R106 d). -/
def execPush (b : Sample) (s : State) : Host.Outcome State Fault Refusal :=
  .next (if s.outValid then s else s.accept s.selectedCtrl b)

/-- POP: while `OUT_VALID = 0` it is not enabled and has no effect (R96). -/
def execPop (s : State) : Host.Outcome State Fault Refusal :=
  match s.out with
  | some v => .next (s.handOver v)
  | none => .next s

end Sys2Proof.Machine
end

