-- ==== Sys2Proof/Machine/Dispatch.lean ====
section
/-! DEFINITION. The dispatch: one arm per constructor. -/

namespace Sys2Proof.Machine

def exec (i : Instr) (s : State) : Host.Outcome State Fault Refusal :=
  match i with
  | .lin8 b => Sys2Proof.Machine.execLin8 b s
  | .ulaw b => Sys2Proof.Machine.execUlaw b s
  | .lin8i b => Sys2Proof.Machine.execLin8i b s
  | .ulawi b => Sys2Proof.Machine.execUlawi b s
  | .reset => Sys2Proof.Machine.execReset s
  | .cfgwr v => Sys2Proof.Machine.execCfgwr v s
  | .push b => Sys2Proof.Machine.execPush b s
  | .pop => Sys2Proof.Machine.execPop s

end Sys2Proof.Machine
end

