-- ==== Sys2Proof/Machine/Ports.lean ====
section
/-! DEFINITION. The output ports (20_memory.md R29, R30, R32): functions of the registers; looking at one changes nothing. -/

namespace Sys2Proof.Machine

/-- `CTRL_Q`: CTRL, or some 2-bit value while it holds none (R29, U4). -/
def State.ctrlQ (s : State) : Ctrl :=
  match s.ctrl with
  | some c => c
  | none => Config.freeCtrlQ s.draws

/-- `FAULT_Q` (R29). -/
def State.faultQ (s : State) : Bool := s.fault

/-- `OUT_BYTE` as the host sees it: some byte while `OUT_VALID = 0` (R29, U5). -/
def State.outByteQ (s : State) : Byte :=
  match s.out with
  | some v => v
  | none => Config.freeOutByte s.draws s.outHist.length

/-- `IN_READY = (not OUT_VALID) or OUT_READY` (R32). -/
def State.inReady (s : State) (outReady : Bool) : Bool := !s.outValid || outReady

end Sys2Proof.Machine
end

