-- ==== Sys2Proof/Machine/Clock.lean ====
section
/-! DEFINITION. The clock level: the actions of one edge in order (20_memory.md R33), and the edge as R31 lists it, every
right-hand side taken before the edge. -/

namespace Sys2Proof.Machine

/-- The actions one after another, stopping where one stops (R33). -/
def runAll : List Instr → State → Host.Outcome State Fault Refusal
  | [], s => .next s
  | i :: rest, s =>
    match exec i s with
    | .next s' => runAll rest s'
    | .fault r => .fault r
    | .refused r => .refused r

/-- R31: `pop = OUT_VALID and OUT_READY`. -/
def popsAt (e : Edge) (s : State) : Bool := s.outValid && e.outReady

/-- R31: `push = IN_VALID and IN_READY`. -/
def pushesAt (e : Edge) (s : State) : Bool := e.inValid && s.inReady e.outReady

/-- R31, register by register, from the values just before the edge (and R105 for the CTRL value of a push while CTRL
holds none). -/
def clockEdge (e : Edge) (s : State) : State :=
  if e.rst then s.clear
  else
    let c := s.selectedCtrl
    let handed := if popsAt e s then s.out.toList else []
    let cause := if pushesAt e s then pushCause s.ctrl e.inSample else none
    { s with
      ctrl := if e.ctrlWe then some e.ctrlWdata else s.ctrl
      out := if pushesAt e s then
          some (encodeSample s.params c e.inSample (Config.freePushByte s.draws)).1
        else if popsAt e s then none else s.out
      fault := if pushesAt e s then
          (encodeSample s.params c e.inSample (Config.freePushByte s.draws)).2 || s.fault
        else s.fault
      inHist := if pushesAt e s then s.inHist ++ [(c, e.inSample)] else s.inHist
      outHist := s.outHist ++ handed
      outStream := s.outStream ++ handed
      raised := s.raised ++ cause.toList
      run := if e.ctrlWe then some
          { pushes := s.nIn + (pushesAt e s).toNat
            pops := s.nOut + (popsAt e s).toNat
            registerEmpty := !pushesAt e s && (popsAt e s || !s.outValid) }
        else s.run
      draws := if cause.isSome then s.draws + 1 else s.draws }

end Sys2Proof.Machine
end

