-- ==== Sys2Proof/Machine/Step.lean ====
section
/-! DEFINITION. One step: the host's next word, its actions in order. With no word pending the block is idle
(60_exceptions.md R114, 30_encoding.md R54). -/

namespace Sys2Proof.Machine

def step (s : State) : Host.Outcome State Fault Refusal :=
  match s.fetch with
  | none => .next s
  | some (w, s') => runAll (actions w) s'

/-- `s` with the table word placed where `step` fetches. An operation row also needs CTRL to select it and the register
empty, so that the next step performs it (notes/assumptions/1.md). -/
def State.withFetchWord (s : State) (nbits w : Nat) : State :=
  match tableWord nbits w with
  | none => s
  | some (.ctrlWord c b) => { s with ctrl := some c, out := none, script := .ctrlWord c b :: s.script }
  | some (.strobeWord e) => { s with script := .strobeWord e :: s.script }

end Sys2Proof.Machine
end

