-- ==== Sys2Proof/Machine/Script.lean ====
section
/-! DEFINITION. The pseudo-actions ENC and RUN (30_encoding.md R55), as host words. -/

namespace Sys2Proof.Machine

/-- `ENC <sample>`: PUSH, then POP (R55). -/
def encWords (b : Sample) : List HostWord := [encode (.push b), encode .pop]

/-- `RUN <op>, <s0>, ...`: CFGWR, then ENC for each sample (R55). -/
def runWords (v : Ctrl) (samples : List Sample) : List HostWord :=
  encode (.cfgwr v) :: samples.flatMap encWords

end Sys2Proof.Machine
end

