-- ==== Sys2Proof/Safety.lean ====
section
/-! DEFINITION. What claims about runs are stated in: the state invariant (10_state.md R20), a clean state
(60_exceptions.md R104, R115), a complete run (70_reset_and_hazards.md R120). -/

namespace Sys2Proof.Machine

/-- Every byte the samples accepted since reset have produced, oldest first: those handed over, then the one held. -/
def State.produced (s : State) : List Byte := s.outHist ++ s.out.toList

/-- The mark `m` of the run under way agrees with the state: no count has gone back, the register held at most the one byte
by which the counts differed at its CFGWR (R20), and every sample of the run has been accepted under the CTRL value that
holds (70_reset_and_hazards.md R121). -/
def RunMark.agrees (m : RunMark) (s : State) : Prop :=
  m.pushes ≤ s.nIn ∧ m.pops ≤ s.nOut ∧ m.pushes = m.pops + (!m.registerEmpty).toNat
    ∧ ∀ p ∈ s.inHist.drop m.pushes, s.ctrl = some p.1

/-- The state invariant (R20, with R107 for runs that have faulted): one byte per accepted sample, in order, each finite
sample's byte being `Op` of it under the CTRL value of its acceptance; FAULT is set exactly when a non-finite sample has
been accepted, and then a fault has been raised; the host has every byte handed over; CTRL holds a value
exactly when a CFGWR has begun a run; and that run's mark agrees with the state. -/
def State.Inv (s : State) : Prop :=
  List.Forall₂ (fun p v => isFinite64 p.2 = true → v = opByte s.params p.1 p.2) s.inHist s.produced
    ∧ s.fault = s.inHist.any (fun p => !isFinite64 p.2)
    ∧ (s.fault = true → s.raised ≠ [])
    ∧ s.outHist <:+ s.outStream
    ∧ s.run.isSome = s.ctrl.isSome
    ∧ ∀ m, s.run = some m → m.agrees s

/-- No fault has been raised since reset: only then may a state be final (R104, R105). -/
def State.clean (s : State) : Bool := !s.fault && s.raised.isEmpty

/-- The run under way is complete with `n` samples (R120): a CFGWR began it, the register being empty then, `n` PUSHes and
`n` POPs have been performed since, `OUT_VALID = 0` and `FAULT = 0`. -/
def State.runComplete (s : State) (n : Nat) : Prop :=
  ∃ m, s.run = some m ∧ m.registerEmpty = true ∧ s.nIn = m.pushes + n ∧ s.nOut = m.pops + n
    ∧ s.outValid = false ∧ s.fault = false

end Sys2Proof.Machine
end

