-- ==== Sys2Proof/Certificates/Slice0/Obligations.lean ====
section
/-! DEFINITION. The statements for the provers. A statement about a next state names every field that changes: a record
update `{ s with ... }` says that all other fields are as in `s`. A value under `∃` is a free value of the model. -/

open Sys2Proof Sys2Proof.Machine

/-! ## Words and instructions -/

/-- The eight rows of the opcode table, each word written out from 30_encoding.md R51 and R54. -/
def Obligations.TheEightRowsDecode : Prop :=
  ∀ (b : Sample) (v : Ctrl),
    decode (.ctrlWord 0b00#2 b) = .ok (.lin8 b)
      ∧ decode (.ctrlWord 0b01#2 b) = .ok (.ulaw b)
      ∧ decode (.ctrlWord 0b10#2 b) = .ok (.lin8i b)
      ∧ decode (.ctrlWord 0b11#2 b) = .ok (.ulawi b)
      ∧ decode (.strobeWord ⟨0b1000#4, v, b⟩) = .ok .reset
      ∧ decode (.strobeWord ⟨0b0100#4, v, b⟩) = .ok (.cfgwr v)
      ∧ decode (.strobeWord ⟨0b0010#4, v, b⟩) = .ok (.push b)
      ∧ decode (.strobeWord ⟨0b0001#4, v, b⟩) = .ok .pop

/-- Decoding an encoded instruction gives it back, and encoding a decoded word gives the word back, but for ports the
action does not use, which are then 0 (30_encoding.md sections 2 and 4). -/
def Obligations.DecodeAndEncodeAgree : Prop :=
  (∀ i : Instr, decode (encode i) = .ok i)
    ∧ ∀ (w : HostWord) (i : Instr), decode w = .ok i →
      (∃ c b, w = .ctrlWord c b ∧ encode i = w)
        ∨ ∃ e : Edge, w = .strobeWord e ∧ encode i = .strobeWord
            { strobe := e.strobe
              ctrlWdata := if e.ctrlWe then e.ctrlWdata else 0
              inSample := if e.inValid then e.inSample else 0 }

/-- A strobe word decodes exactly when one strobe is active; no strobe is rejected as idle, more than one as several
(30_encoding.md section 4). -/
def Obligations.DecodeTakesExactlyOneStrobe : Prop :=
  ∀ e : Edge,
    ((∃ i, decode (.strobeWord e) = .ok i) ↔ HostWord.wellFormed (.strobeWord e) = true)
      ∧ (decode (.strobeWord e) = .error .idle ↔ ∀ k < 4, e.strobe.getLsbD k = false)
      ∧ (decode (.strobeWord e) = .error .severalStrobes ↔
          ∃ j k, j < k ∧ e.strobe.getLsbD j = true ∧ e.strobe.getLsbD k = true)

/-- A step whose next word decodes to `i` is `exec i` on the state with that word taken. -/
def Obligations.StepRunsDecodedInstruction : Prop :=
  ∀ (s : State) (w : HostWord) (rest : List HostWord) (i : Instr),
    s.script = w :: rest → decode w = .ok i → step s = exec i { s with script := rest }

/-- With no word pending nothing changes, and an idle edge (strobe `0000`) only passes (30_encoding.md R54). -/
def Obligations.IdleStepChangesNothing : Prop :=
  (∀ s : State, s.script = [] → step s = .next s)
    ∧ ∀ (s : State) (v : Ctrl) (b : Sample) (rest : List HostWord),
        s.script = .strobeWord ⟨0b0000#4, v, b⟩ :: rest → step s = .next { s with script := rest }

/-! ## Reset -/

/-- The values after reset (10_state.md R23). -/
def Obligations.ResetValues : Prop :=
  State.reset.ctrl = none ∧ State.reset.outValid = false ∧ State.reset.fault = false
    ∧ State.reset.inHist = [] ∧ State.reset.outHist = [] ∧ State.reset.nIn = 0 ∧ State.reset.nOut = 0

/-- RESET is always enabled and puts every register and history at its reset value; a held byte is lost. The bytes the
host already has, the parameters and the host's words stay (70_reset_and_hazards.md section 1). -/
def Obligations.ResetClearsTheBlock : Prop :=
  ∀ s : State, ∃ d, exec .reset s = .next { s with
    ctrl := none, out := none, fault := false, inHist := [], outHist := [], raised := []
    run := none, draws := d }

/-- At an edge with `RST = 1` the other strobes are ignored: the step is RESET (70_reset_and_hazards.md R118). -/
def Obligations.ResetOverridesOtherStrobes : Prop :=
  ∀ (s : State) (e : Edge) (rest : List HostWord),
    s.script = .strobeWord e :: rest → e.rst = true → step s = exec .reset { s with script := rest }

/-! ## Primitives -/

/-- `hsb` is `floor(log2(x))`, and -1 at zero (00_scope.md R11). -/
def Obligations.HsbIsFloorLog2 : Prop :=
  hsb 0 = -1 ∧ ∀ x : Nat, 0 < x → ∃ k : Nat, hsb x = k ∧ 2 ^ k ≤ x ∧ x < 2 ^ (k + 1)

/-- `fmulc` is the binary64 product, to nearest with ties to even, in an unbounded range: the error is at most half a
unit in the last place, a tie has an even last place, the significand has 53 bits unless the product is exact, and a
product below `2^-1022` is exact (00_scope.md R12). -/
def Obligations.FmulcRoundsToNearestEven : Prop :=
  ∀ (b : Sample) (C : Nat), isFinite64 b = true → C = 127 ∨ C = 32767 →
    let p := fmulc b C
    let v := val64 b * (C : ℚ)
    p.neg = signOf b
      ∧ |p.value - v| ≤ (2 : ℚ) ^ p.exp / 2
      ∧ (|p.value - v| = (2 : ℚ) ^ p.exp / 2 → p.mag % 2 = 0)
      ∧ p.mag ≤ 2 ^ 53
      ∧ (2 ^ 52 ≤ p.mag ∨ p.value = v)
      ∧ (|v| < (2 : ℚ) ^ (-1022 : ℤ) → p.value = v)

/-- `trunc` is the integer of largest magnitude not exceeding `|P|`, with the sign of `P` (00_scope.md R11). -/
def Obligations.TruncGoesTowardZero : Prop :=
  ∀ p : Product,
    |(p.trunc : ℚ)| ≤ |p.value| ∧ |p.value| < |(p.trunc : ℚ)| + 1
      ∧ (0 ≤ p.value → 0 ≤ p.trunc) ∧ (p.value ≤ 0 → p.trunc ≤ 0)

/-- `round_int` is the nearest integer; halfway, the even one under `even`, the one of larger magnitude under `away`
(00_scope.md R11). -/
def Obligations.RoundIntGoesToNearest : Prop :=
  ∀ (p : Product) (ties : Config.Ties),
    |p.value - (p.roundInt ties : ℚ)| ≤ 1 / 2
      ∧ (|p.value - (p.roundInt ties : ℚ)| = 1 / 2 →
          (ties = .even → p.roundInt ties % 2 = 0)
            ∧ (ties = .away → |p.value| < |(p.roundInt ties : ℚ)|))

/-! ## LINQ8 and NORM16 -/

/-- LINQ8 is the clamped sum `round_int(P) + 128`, never wrapping; byte 0 exactly at `P ≤ -127.5`, byte 128 exactly where
`P` rounds to 0 (40_linear8.md R58, R60). -/
def Obligations.Linq8Saturates : Prop :=
  ∀ (ties : Config.Ties) (b : Sample),
    let r := (fmulc b 127).roundInt ties
    (127 ≤ r → linq8 ties b = 255#8)
      ∧ (r ≤ -128 → linq8 ties b = 0#8)
      ∧ (-128 ≤ r → r ≤ 127 → ((linq8 ties b).toNat : ℤ) = r + 128)
      ∧ (linq8 ties b = 0#8 ↔ (fmulc b 127).value ≤ -255 / 2)
      ∧ (linq8 ties b = 128#8 ↔ r = 0)

/-- The two tie rules give different bytes exactly on products of magnitude `m + 1/2` with `m` even and at most 126
(40_linear8.md R59). -/
def Obligations.TieRulesDifferOnEvenHalves : Prop :=
  ∀ b : Sample,
    linq8 .even b ≠ linq8 .away b ↔ ∃ m : Nat, m % 2 = 0 ∧ m ≤ 126 ∧ |(fmulc b 127).value| = (m : ℚ) + 1 / 2

/-- NORM16 is the truncated product, clamped (41_norm16.md R63, R65). -/
def Obligations.Norm16Saturates : Prop :=
  ∀ b : Sample,
    let P := (fmulc b 32767).value
    (32768 ≤ P → (norm16 b).toInt = 32767)
      ∧ (P ≤ -32768 → (norm16 b).toInt = -32768)
      ∧ (|P| < 32768 → (norm16 b).toInt = (fmulc b 32767).trunc)

/-- Both conversions are monotone in the value of the sample (40_linear8.md R61, 41_norm16.md R69). -/
def Obligations.ConversionsAreMonotone : Prop :=
  ∀ (ties : Config.Ties) (b b' : Sample), isFinite64 b = true → isFinite64 b' = true → val64 b ≤ val64 b' →
    (linq8 ties b).toNat ≤ (linq8 ties b').toNat ∧ (norm16 b).toInt ≤ (norm16 b').toInt

/-- A sample in `[-1.0, 1.0]` never gives pcm16 -32768 nor linear byte 0 (41_norm16.md R65, 40_linear8.md R60). -/
def Obligations.LogicalRangeStaysInside : Prop :=
  ∀ (ties : Config.Ties) (b : Sample), isFinite64 b = true → |val64 b| ≤ 1 →
    -32767 ≤ (norm16 b).toInt ∧ 1 ≤ (linq8 ties b).toNat

/-- Every sample with magnitude bits below `0x3F00002000400080` gives pcm16 0 and the code `0xFF`, whatever its sign
(41_norm16.md R67). -/
def Obligations.SmallSamplesGiveZero : Prop :=
  ∀ b : Sample, b.toNat % 2 ^ 63 < 0x3F00002000400080 → norm16 b = 0#16 ∧ ulawByte b = 0xFF#8

/-- NORM16 is odd-symmetric except at the clamp (41_norm16.md R69). -/
def Obligations.Norm16IsOddBelowTheClamp : Prop :=
  ∀ b : Sample, isFinite64 b = true → |(fmulc b 32767).value| < 32768 →
    (norm16 (b ^^^ 0x8000000000000000#64)).toInt = -(norm16 b).toInt

/-- Every pcm16 value is the image of some finite sample (41_norm16.md R68). -/
def Obligations.Norm16ReachesEveryValue : Prop :=
  ∀ v : Pcm16, ∃ b : Sample, isFinite64 b = true ∧ norm16 b = v

/-! ## COMPAND and BITINV -/

/-- The two branches: magnitude and mask, the negative one with its `-1` on unbounded integers and in its hardware form
(42_ulaw_compand.md R74, R75). -/
def Obligations.MagnitudeOfEachBranch : Prop :=
  ∀ p : Pcm16,
    (p.toInt < 0 →
        (magnitude p : ℤ) = 132 - p.toInt - 1 ∧ (magnitude p : ℤ) = 131 + |p.toInt|
          ∧ magnitude p = 132 + (~~~p).toNat ∧ signMask p = 0x7F ∧ 132 ≤ magnitude p ∧ magnitude p ≤ 32899)
      ∧ (0 ≤ p.toInt →
        (magnitude p : ℤ) = 132 + p.toInt ∧ signMask p = 0xFF ∧ 132 ≤ magnitude p ∧ magnitude p ≤ 32899)

/-- The magnitude's range, its 16 unsigned bits, and the equality of the two branches at `p` and `-p - 1`
(42_ulaw_compand.md R76). -/
def Obligations.MagnitudeNeedsSixteenBits : Prop :=
  ∀ p : Pcm16,
    132 ≤ magnitude p ∧ magnitude p ≤ 0x8083 ∧ magnitude p < 2 ^ 16
      ∧ (32767 < magnitude p ↔ 32636 ≤ p.toInt ∨ p.toInt ≤ -32637)
      ∧ (0 ≤ p.toInt → magnitude (BitVec.ofInt 16 (-p.toInt - 1)) = magnitude p)

/-- The segment: its definition, its range, and its equivalent forms; the mantissa is cut from the un-ORed magnitude (42_ulaw_compand.md R77). -/
def Obligations.SegmentOfMagnitude : Prop :=
  ∀ m : Nat, 132 ≤ m → m ≤ 32899 →
    (segment m : ℤ) = hsb (m ||| 0xFF) - 7 ∧ 7 ≤ hsb (m ||| 0xFF) ∧ hsb (m ||| 0xFF) ≤ 15 ∧ segment m ≤ 8
      ∧ (m ≤ 255 → segment m = 0)
      ∧ (256 ≤ m → (segment m : ℤ) = hsb m - 7)
      ∧ (segment m : ℤ) = hsb (m / 256) + 1
      ∧ (segment m = 8 ↔ m.testBit 15 = true)
      ∧ (segment m = 8 ↔ 32768 ≤ m)
      ∧ mantissa m = m / 2 ^ (segment m + 3) % 16

/-- The fields of the code: bit 7 is the sign region, bits 6:4 the segment complemented, bits 3:0 the mantissa complemented
(30_encoding.md R47); saturated, those of segment 7, mantissa 15. -/
def Obligations.CodeFields : Prop :=
  ∀ p : Pcm16,
    let m := magnitude p
    ((compand p).getLsbD 7 = true ↔ 0 ≤ p.toInt)
      ∧ (segment m ≤ 7 → (compand p).toNat / 16 % 8 = 7 - segment m ∧ (compand p).toNat % 16 = 15 - mantissa m)
      ∧ (8 ≤ segment m → (compand p).toNat / 16 % 8 = 0 ∧ (compand p).toNat % 16 = 0)

/-- Saturation: the pre-mask word `0x7F`, exactly from 32636 up and from -32637 down; the codes `0x80` and `0x00` and all
that they cover (42_ulaw_compand.md R79). -/
def Obligations.SaturatedCodes : Prop :=
  ∀ p : Pcm16,
    (8 ≤ segment (magnitude p) ↔ 32768 ≤ magnitude p)
      ∧ (8 ≤ segment (magnitude p) ↔ 32636 ≤ p.toInt ∨ p.toInt ≤ -32637)
      ∧ (8 ≤ segment (magnitude p) → compand p = BitVec.ofNat 8 (0x7F ^^^ signMask p))
      ∧ (compand p = 0x80#8 ↔ 31612 ≤ p.toInt)
      ∧ (compand p = 0x00#8 ↔ p.toInt ≤ -31613)

/-- Mirror symmetry, its values at the ends, and that `p` and `-p` are not so related (42_ulaw_compand.md R85). -/
def Obligations.CompandMirrors : Prop :=
  (∀ p : Pcm16, 0 ≤ p.toInt → compand (BitVec.ofInt 16 (-p.toInt - 1)) = compand p ^^^ 0x80#8)
    ∧ compand 0#16 = 0xFF#8 ∧ compand (BitVec.ofInt 16 (-1)) = 0x7F#8
    ∧ compand (BitVec.ofInt 16 32767) = 0x80#8 ∧ compand (BitVec.ofInt 16 (-32768)) = 0x00#8
    ∧ compand (BitVec.ofInt 16 4) = 0xFE#8 ∧ compand (BitVec.ofInt 16 (-4)) = 0x7F#8

/-- Monotonicity: pre-mask word and segment do not fall as the magnitude grows; the code does not rise as `|pcm16|` grows
within a sign region, between its end values; over the signed range it rises to `0x7F` at -1 and falls from `0xFF` at 0
(42_ulaw_compand.md R87). -/
def Obligations.CompandMonotoneInEachRegion : Prop :=
  (∀ m m' : Nat, 132 ≤ m → m ≤ m' → m' ≤ 32899 → premask m ≤ premask m' ∧ segment m ≤ segment m')
    ∧ (∀ p q : Pcm16, 0 ≤ p.toInt → p.toInt ≤ q.toInt → (compand q).toNat ≤ (compand p).toNat)
    ∧ (∀ p q : Pcm16, p.toInt ≤ q.toInt → q.toInt < 0 → (compand p).toNat ≤ (compand q).toNat)
    ∧ compand 0#16 = 0xFF#8 ∧ compand (BitVec.ofInt 16 32767) = 0x80#8
    ∧ compand (BitVec.ofInt 16 (-1)) = 0x7F#8 ∧ compand (BitVec.ofInt 16 (-32768)) = 0x00#8

/-- The complete map of COMPAND: the operands of each code, in closed form (95_test_vectors.md section 3). -/
def Obligations.CompandClosedForm : Prop :=
  ∀ (p : Pcm16) (v : Nat), v ≤ 127 →
    let lo : ℤ := ((v % 16 : Nat) + 16) * 2 ^ (v / 16 + 3) - 132
    let hi : ℤ := if v = 127 then 32767 else lo + 2 ^ (v / 16 + 3) - 1
    (0 ≤ p.toInt → (compand p = BitVec.ofNat 8 (0xFF - v) ↔ lo ≤ p.toInt ∧ p.toInt ≤ hi))
      ∧ (p.toInt < 0 → (compand p = BitVec.ofNat 8 (0x7F - v) ↔ -hi - 1 ≤ p.toInt ∧ p.toInt ≤ -lo - 1))

/-- COMPAND is onto: every one of the 256 codes is produced (42_ulaw_compand.md R84). -/
def Obligations.CompandReachesEveryCode : Prop :=
  ∀ v : Byte, ∃ p : Pcm16, compand p = v

/-- What the `-1` of the negative branch does: without it the pre-mask word differs exactly at an operand that is the last
of its code (42_ulaw_compand.md R82). -/
def Obligations.MinusOneMattersAtTheLastOperand : Prop :=
  ∀ p : Pcm16, p.toInt < 0 →
    (premask (132 - p.toInt).toNat ≠ premask (magnitude p) ↔
      p.toInt ≠ -32768 ∧ compand (BitVec.ofInt 16 (p.toInt - 1)) ≠ compand p)

/-- BITINV complements every bit, bit 7 included (43_bitinv.md R89). -/
def Obligations.BitinvComplementsEveryBit : Prop :=
  ∀ c : Byte,
    bitinv c = ~~~c &&& 0xFF#8 ∧ bitinv c = c ^^^ 0xFF#8 ∧ (bitinv c).toNat = 255 - c.toNat
      ∧ (∀ k < 8, (bitinv c).getLsbD k = !c.getLsbD k)
      ∧ bitinv 0xB5#8 = 0x4A#8 ∧ bitinv 0xFF#8 = 0x00#8 ∧ bitinv 0x00#8 = 0xFF#8

/-- BITINV is an order-reversing involution and bijection, is not the mirror of R85, and restores the fields of a u-law
code (43_bitinv.md R91). -/
def Obligations.BitinvRestoresFields : Prop :=
  (∀ c : Byte, bitinv (bitinv c) = c)
    ∧ Function.Bijective bitinv
    ∧ (∀ c d : Byte, c.toNat < d.toNat → (bitinv d).toNat < (bitinv c).toNat)
    ∧ (∀ c : Byte, bitinv c ≠ c ^^^ 0x80#8)
    ∧ ∀ p : Pcm16,
        let m := magnitude p
        ((bitinv (compand p)).getLsbD 7 = true ↔ p.toInt < 0)
          ∧ (bitinv (compand p)).toNat / 16 % 8 = (if 8 ≤ segment m then 7 else segment m)
          ∧ (bitinv (compand p)).toNat % 16 = (if 8 ≤ segment m then 15 else mantissa m)

/-- Inversion is the bytewise complement: for u-law always, for linear exactly under `P_LINEAR_INVERT`
(43_bitinv.md R92, 44_operations.md R102). -/
def Obligations.InvertFlagComplements : Prop :=
  ∀ P : Config.Params,
    (∀ b, opByte P 0b11#2 b = bitinv (opByte P 0b01#2 b))
      ∧ ((∀ b, opByte P 0b10#2 b = opByte P 0b00#2 b ^^^ 0xFF#8) ↔ P.linearInvert = true)
      ∧ (P.linearInvert = false → ∀ b, opByte P 0b10#2 b = opByte P 0b00#2 b)

/-! ## The four operations -/

/-- LIN8 on a finite sample, selected, with the register empty: its byte is loaded, the sample joins IN_HIST, nothing else
changes (44_operations.md R98). -/
def Obligations.Lin8Executes : Prop :=
  (∀ (b : Sample) (s : State), isFinite64 b = true → s.ctrl = some 0b00#2 → s.out = none →
      exec (.lin8 b) s = .next { s with
        inHist := s.inHist ++ [(0b00#2, b)]
        out := some (BitVec.ofInt 8 (clamp ((fmulc b 127).roundInt s.params.roundTies + 128) 0 255)) })
    ∧ ∀ P, lin8Byte P 0x0000000000000000#64 = 0x80#8 ∧ lin8Byte P 0x3FF0000000000000#64 = 255#8
        ∧ lin8Byte P 0xBFF0000000000000#64 = 1#8

/-- LIN8I on a finite sample: LINQ8, complemented only under `P_LINEAR_INVERT` (44_operations.md R99). -/
def Obligations.Lin8iExecutes : Prop :=
  (∀ (b : Sample) (s : State), isFinite64 b = true → s.ctrl = some 0b10#2 → s.out = none →
      exec (.lin8i b) s = .next { s with
        inHist := s.inHist ++ [(0b10#2, b)]
        out := some (if s.params.linearInvert then bitinv (linq8 s.params.roundTies b)
          else linq8 s.params.roundTies b) })
    ∧ ∀ ties, lin8iByte ⟨ties, false⟩ 0x0000000000000000#64 = 0x80#8
        ∧ lin8iByte ⟨ties, true⟩ 0x0000000000000000#64 = 0x7F#8

/-- ULAW on a finite sample: `COMPAND(NORM16(b))` (44_operations.md R100). -/
def Obligations.UlawExecutes : Prop :=
  (∀ (b : Sample) (s : State), isFinite64 b = true → s.ctrl = some 0b01#2 → s.out = none →
      exec (.ulaw b) s = .next { s with
        inHist := s.inHist ++ [(0b01#2, b)], out := some (compand (norm16 b)) })
    ∧ ulawByte 0x3FB999999999999A#64 = 0xB5#8 ∧ ulawByte 0xBFB999999999999A#64 = 0x35#8

/-- ULAWI on a finite sample: `BITINV(COMPAND(NORM16(b)))` (44_operations.md R101). -/
def Obligations.UlawiExecutes : Prop :=
  (∀ (b : Sample) (s : State), isFinite64 b = true → s.ctrl = some 0b11#2 → s.out = none →
      exec (.ulawi b) s = .next { s with
        inHist := s.inHist ++ [(0b11#2, b)], out := some (bitinv (compand (norm16 b))) })
    ∧ ulawiByte 0x3FB999999999999A#64 = 0x4A#8 ∧ ulawiByte 0x0000000000000000#64 = 0x00#8
    ∧ ulawiByte 0x3FF0000000000000#64 = 0x7F#8 ∧ ulawiByte 0xBFF0000000000000#64 = 0xFF#8

/-- An operation that CTRL does not select, or that finds the register full, does not happen (the model's choice,
notes/assumptions/6.md). -/
def Obligations.UnselectedOperationDoesNothing : Prop :=
  ∀ (c : Ctrl) (b : Sample) (s : State), s.ctrl ≠ some c ∨ s.out ≠ none → exec (operationOf c b) s = .next s

/-- Any of the four operations, and PUSH, on a non-finite sample: FAULT is set, some byte is loaded, the sample is
recorded, and nothing else of the block changes (60_exceptions.md R104, R107). -/
def Obligations.NonFiniteSampleSetsFault : Prop :=
  ∀ (c : Ctrl) (b : Sample) (s : State), isFinite64 b = false → s.ctrl = some c → s.out = none →
    ∃ (v : Byte) (d : Nat),
      let t : State := { s with
        inHist := s.inHist ++ [(c, b)], out := some v, fault := true
        raised := s.raised ++ [.nonFiniteSample b], draws := d }
      exec (operationOf c b) s = .next t ∧ exec (.push b) s = .next t

/-! ## The host actions -/

/-- PUSH performs the operation that CTRL selects (30_encoding.md R51, 44_operations.md R94). -/
def Obligations.PushPerformsTheSelectedOperation : Prop :=
  ∀ (c : Ctrl) (b : Sample) (s : State), s.ctrl = some c → exec (.push b) s = exec (operationOf c b) s

/-- PUSH of a finite sample under a written CTRL, with the register empty: `Op` of the sample, by encoding and inversion,
is loaded, the pair joins IN_HIST, nothing else changes (44_operations.md section 2). -/
def Obligations.PushOfFiniteSample : Prop :=
  ∀ (c : Ctrl) (b : Sample) (s : State), isFinite64 b = true → s.ctrl = some c → s.out = none →
    exec (.push b) s = .next { s with
      inHist := s.inHist ++ [(c, b)]
      out := some
        (if c.getLsbD 0 then (if c.getLsbD 1 then bitinv (compand (norm16 b)) else compand (norm16 b))
        else if c.getLsbD 1 && s.params.linearInvert then bitinv (linq8 s.params.roundTies b)
        else linq8 s.params.roundTies b) }

/-- PUSH while CTRL holds no value: the sample is encoded under one of the four CTRL values, and CTRL still holds none; a
non-finite sample sets FAULT all the same, and the reported cause is `CtrlUnwritten` (60_exceptions.md R105, R110). -/
def Obligations.PushUnderUnwrittenCtrl : Prop :=
  ∀ (b : Sample) (s : State), s.ctrl = none → s.out = none →
    ∃ (c : Ctrl) (v : Byte) (d : Nat),
      exec (.push b) s = .next { s with
        inHist := s.inHist ++ [(c, b)], out := some v, fault := s.fault || !isFinite64 b
        raised := s.raised ++ [.ctrlUnwritten], draws := d }
      ∧ (isFinite64 b = true → v = opByte s.params c b)

/-- POP hands the held byte over and empties the register; nothing else changes. With the register empty it has no effect
(44_operations.md R96). -/
def Obligations.PopHandsTheByteOver : Prop :=
  (∀ (v : Byte) (s : State), s.out = some v →
      exec .pop s = .next { s with
        outStream := s.outStream ++ [v], outHist := s.outHist ++ [v], out := none })
    ∧ ∀ s : State, s.out = none → exec .pop s = .next s

/-- CFGWR writes CTRL, in every state, begins a new run, whose mark holds the two counts and whether the register is empty,
and touches nothing else; the next PUSH of a finite sample uses the value
(44_operations.md section 2). -/
def Obligations.CfgwrWritesCtrl : Prop :=
  ∀ (v : Ctrl) (s : State),
    let mark : RunMark := { pushes := s.nIn, pops := s.nOut, registerEmpty := !s.outValid }
    let t : State := { s with ctrl := some v, run := some mark }
    exec (.cfgwr v) s = .next t
      ∧ ∀ b, isFinite64 b = true → s.out = none →
          exec (.push b) t = .next { t with inHist := s.inHist ++ [(v, b)], out := some (opByte s.params v b) }

/-- In every state exactly one of PUSH and POP is enabled: the other leaves the state as it is (70_reset_and_hazards.md R124). -/
def Obligations.ExactlyOneOfPushAndPopIsEnabled : Prop :=
  ∀ (b : Sample) (s : State),
    (exec (.push b) s = .next s ↔ s.outValid = true) ∧ (exec .pop s = .next s ↔ s.outValid = false)

/-! ## Frames and whole-machine rules -/

/-- What PUSH and the four operations leave unchanged, on every sample and in every state: CTRL, the bytes handed over,
the parameters, the host's words, the start of the run, and FAULT for a finite sample (44_operations.md R95). -/
def Obligations.AcceptingInstructionsFrame : Prop :=
  ∀ (b : Sample) (i : Instr) (s t : State),
    i = .push b ∨ i = .lin8 b ∨ i = .ulaw b ∨ i = .lin8i b ∨ i = .ulawi b → exec i s = .next t →
    t.ctrl = s.ctrl ∧ t.outHist = s.outHist ∧ t.outStream = s.outStream ∧ t.params = s.params ∧ t.script = s.script
      ∧ t.run = s.run ∧ (isFinite64 b = true → t.fault = s.fault)

/-- CTRL is written by CFGWR, forgotten at RESET, and changed by nothing else (10_state.md R15, 70_reset_and_hazards.md R117). -/
def Obligations.CtrlChangesOnlyByCfgwrAndReset : Prop :=
  ∀ (i : Instr) (s t : State), exec i s = .next t →
    (∀ v, i = .cfgwr v → t.ctrl = some v) ∧ (i = .reset → t.ctrl = none)
      ∧ ((∀ v, i ≠ .cfgwr v) → i ≠ .reset → t.ctrl = s.ctrl)

/-- FAULT is set by the acceptance of a non-finite sample and by nothing else, and cleared by RESET and by nothing else
(10_state.md R17, 60_exceptions.md R112). -/
def Obligations.FaultIsSticky : Prop :=
  ∀ (i : Instr) (s t : State), exec i s = .next t →
    (i = .reset → t.fault = false)
      ∧ (i ≠ .reset → (t.fault = true ↔
          s.fault = true ∨ ∃ c b, isFinite64 b = false ∧ t.inHist = s.inHist ++ [(c, b)]))

/-- FAULT gates nothing: with another value of it, an instruction does the same to everything else (10_state.md R17). -/
def Obligations.FaultGatesNothing : Prop :=
  ∀ (i : Instr) (s t : State) (f : Bool), exec i s = .next t →
    ∃ f', exec i { s with fault := f } = .next { t with fault := f' }

/-- The stream positions: a PUSH or selected operation that finds the register empty advances `n_in` by one, a POP that
finds it full advances `n_out` by one, nothing else but RESET changes them, and both histories only grow (10_state.md R14). -/
def Obligations.PositionsAdvanceByOne : Prop :=
  ∀ (i : Instr) (s t : State), exec i s = .next t → i ≠ .reset →
    s.inHist <+: t.inHist ∧ s.outHist <+: t.outHist
      ∧ t.nIn ≤ s.nIn + 1 ∧ t.nOut ≤ s.nOut + 1
      ∧ (t.nIn = s.nIn + 1 ↔
          s.outValid = false ∧ ∃ b, i = .push b ∨ ∃ c, i = operationOf c b ∧ s.ctrl = some c)
      ∧ (t.nOut = s.nOut + 1 ↔ s.outValid = true ∧ i = .pop)

/-- No instruction writes the parameters or the host's words (10_state.md R24). -/
def Obligations.ParametersAreNeverWritten : Prop :=
  ∀ (i : Instr) (s t : State), exec i s = .next t → t.params = s.params ∧ t.script = s.script

/-- The state invariant (10_state.md R20) holds after reset. -/
def Obligations.InvariantAtReset : Prop := State.reset.Inv

/-- Every step keeps the state invariant (10_state.md R20), from every state that meets it, through faults too. -/
def Obligations.StepKeepsInvariant : Prop :=
  ∀ s t : State, s.Inv → step s = .next t → t.Inv

/-- In a state that meets the invariant and has `FAULT = 0`, the claims of R20 hold as it states them; and where the run
under way is complete with `n` samples (70_reset_and_hazards.md R120), exactly `n` bytes have been handed over since it
began, in order, each `Op` of its sample under the one CTRL value that still holds (R121). -/
def Obligations.OneBytePerSampleInOrder : Prop :=
  ∀ s : State, s.Inv → s.fault = false →
    s.nIn = s.nOut + s.outValid.toNat
      ∧ (∀ k, k < s.nOut → ∃ p, s.inHist[k]? = some p ∧ s.outHist[k]? = some (opByte s.params p.1 p.2))
      ∧ (∀ v, s.out = some v → ∃ p, s.inHist.getLast? = some p ∧ v = opByte s.params p.1 p.2)
      ∧ ∀ n, s.runComplete n → ∃ (m : RunMark) (c : Ctrl) (samples : List Sample),
          s.run = some m ∧ s.ctrl = some c ∧ samples.length = n
            ∧ s.inHist.drop m.pushes = samples.map (fun b => (c, b))
            ∧ s.outHist.drop m.pops = samples.map (opByte s.params c)

/-- No word of the host makes the block stop: every step answers a next state (60_exceptions.md R103,
70_reset_and_hazards.md R124). -/
def Obligations.EveryStepAnswersANextState : Prop :=
  ∀ s : State, ∃ t, step s = .next t

/-- A sample offered at an edge with `RST = 0` is accepted exactly when `IN_READY = 1`, and otherwise nothing is taken
(20_memory.md R32). -/
def Obligations.SampleAcceptedExactlyWhenReady : Prop :=
  ∀ (e : Edge) (rest : List HostWord) (s t : State),
    s.script = .strobeWord e :: rest → e.rst = false → e.inValid = true → step s = .next t →
      (s.inReady e.outReady = true → ∃ c, t.inHist = s.inHist ++ [(c, e.inSample)])
        ∧ (s.inReady e.outReady = false → t.inHist = s.inHist)

/-- The clock edge as R31 lists it, every right-hand side taken before the edge, equals the enabled actions one after
another, POP, PUSH, CFGWR (20_memory.md R33). -/
def Obligations.ClockEdgeIsTheInterleaving : Prop :=
  ∀ (e : Edge) (s : State), runAll (actions (.strobeWord e)) s = .next (clockEdge e s)

/-- RUN is `encode(samples, encoding, invert)`: from an empty register, the script of R55 over finite samples leaves exactly
one byte per sample in OUT_HIST, in order, each `Op` of its sample, CTRL at the operation, and nothing else changed; with
`FAULT = 0` the run is complete in the sense of R120 (30_encoding.md R55, 44_operations.md R102 e). -/
def Obligations.RunEncodesTheSequence : Prop :=
  ∀ (v : Ctrl) (samples : List Sample) (rest : List HostWord) (s : State),
    (∀ b ∈ samples, isFinite64 b = true) → s.out = none → s.script = runWords v samples ++ rest →
    let bytes := samples.map (opByte s.params v)
    let t : State := { s with
      script := rest, ctrl := some v, run := some { pushes := s.nIn, pops := s.nOut, registerEmpty := true }
      inHist := s.inHist ++ samples.map (fun b => (v, b))
      outHist := s.outHist ++ bytes
      outStream := s.outStream ++ bytes }
    Host.Core.run Sys2Proof.core (1 + 2 * samples.length) s = .next t
      ∧ (s.fault = false → t.runComplete samples.length)

/-- The byte of a finite sample depends on nothing but the sample, CTRL and the parameters (10_state.md R22,
20_memory.md R39 d). -/
def Obligations.ByteDependsOnSampleAndCtrlOnly : Prop :=
  ∀ (c : Ctrl) (b : Sample) (s s' : State), isFinite64 b = true → s.ctrl = some c → s'.ctrl = some c →
    s.out = none → s'.out = none → s.params = s'.params →
    ∃ t t', exec (.push b) s = .next t ∧ exec (.push b) s' = .next t' ∧ t.out = t'.out ∧ t.out ≠ none

/-- A host that writes CTRL first and offers only finite samples never sees a fault (60_exceptions.md R115). -/
def Obligations.DutifulHostSeesNoFault : Prop :=
  ∀ (w : HostWord) (rest : List HostWord) (s : State),
    s.script = w :: rest → (∀ i ∈ actions w, i.wellFormed = true) → s.ctrl ≠ none → s.clean = true →
    ∃ t, step s = .next t ∧ t.clean = true ∧ t.faultQ = false
end

