-- ==== Sys2Proof/Laws/Operands.lean ====
section
/-! SUPPORT. The integer rounding, in the words of 40_linear8.md R57. -/

namespace Sys2Proof.Machine

/-- With `half = 2^k`, the part below the point is at least a half exactly when the half-units are odd. -/
theorem half_units (m k : Nat) :
    (m >>> k) % 2 = (if 2 ^ k ≤ m % 2 ^ (k + 1) then 1 else 0)
      ∧ (m = (m >>> k) <<< k ↔ m % 2 ^ k = 0) := by
  have hk : 0 < 2 ^ k := by positivity
  have hm := Nat.div_add_mod m (2 ^ k)
  have hlow := Nat.mod_lt m hk
  rw [Nat.shiftRight_eq_div_pow, Nat.shiftLeft_eq]
  constructor
  · rw [Nat.pow_succ, Nat.mod_mul]
    rcases Nat.mod_two_eq_zero_or_one (m / 2 ^ k) with h | h <;> rw [h] <;> split <;> omega
  · rw [Nat.mul_comm]
    omega

/-- R57's own listing, with `fr`, `half` and the two tie rules. -/
theorem roundInt_listing (p : Product) (ties : Config.Ties) (h : p.exp < 0) :
    p.roundInt ties =
      (let sh := (-p.exp).toNat
       let ip := p.mag >>> sh
       let fr := p.mag % 2 ^ sh
       let half := 2 ^ (sh - 1)
       p.signed (if fr > half ∨ (fr = half ∧ (ties = .away ∨ ip % 2 = 1)) then ip + 1 else ip)) := by
  obtain ⟨k, hk⟩ : ∃ k, (-p.exp).toNat = k + 1 := ⟨(-p.exp).toNat - 1, by omega⟩
  obtain ⟨h1, h2⟩ := half_units p.mag k
  have hpos : 0 < 2 ^ k := by positivity
  have h3 : p.mag % 2 ^ (k + 1) % 2 ^ k = p.mag % 2 ^ k := Nat.mod_mod_of_dvd _ (pow_dvd_pow 2 (Nat.le_succ k))
  have h4 : p.mag % 2 ^ (k + 1) < 2 ^ (k + 1) := Nat.mod_lt _ (by positivity)
  have tie : 2 ^ k ≤ p.mag % 2 ^ (k + 1) → (p.mag % 2 ^ (k + 1) = 2 ^ k ↔ p.mag % 2 ^ k = 0) := by
    generalize p.mag % 2 ^ (k + 1) = r at h3 h4
    intro hle
    rw [← h3, Nat.mod_eq_sub_mod hle, Nat.mod_eq_of_lt (by omega)]
    omega
  unfold Product.roundInt
  rw [if_neg (by omega)]
  simp only [hk, Nat.add_sub_cancel, h1, ne_eq, h2]
  by_cases hle : 2 ^ k ≤ p.mag % 2 ^ (k + 1)
  · have ht := tie hle
    rw [if_pos hle]
    by_cases h0 : p.mag % 2 ^ k = 0
    · have := ht.mpr h0
      simp only [this, lt_irrefl, false_or, h0, not_true, true_and, apply_ite p.signed]
    · have : 2 ^ k < p.mag % 2 ^ (k + 1) := lt_of_le_of_ne hle (fun e => h0 (ht.mp e.symm))
      simp [this, h0]
  · have : ¬ 2 ^ k < p.mag % 2 ^ (k + 1) := by omega
    have : p.mag % 2 ^ (k + 1) ≠ 2 ^ k := by omega
    simp [*]

end Sys2Proof.Machine
end

