-- ==== Sys2Proof/Laws/State.lean ====
section
/-! SUPPORT. Each field after each named update. -/

namespace Sys2Proof.Machine

@[simp] theorem State.inTake_ctrl (s : State) (c : Ctrl) (b : Sample) : (s.inTake c b).ctrl = s.ctrl := rfl
@[simp] theorem State.inTake_out (s : State) (c : Ctrl) (b : Sample) : (s.inTake c b).out = s.out := rfl
@[simp] theorem State.inTake_fault (s : State) (c : Ctrl) (b : Sample) : (s.inTake c b).fault = s.fault := rfl
@[simp] theorem State.inTake_inHist (s : State) (c : Ctrl) (b : Sample) :
    (s.inTake c b).inHist = s.inHist ++ [(c, b)] := rfl
@[simp] theorem State.inTake_outHist (s : State) (c : Ctrl) (b : Sample) : (s.inTake c b).outHist = s.outHist := rfl
@[simp] theorem State.inTake_outStream (s : State) (c : Ctrl) (b : Sample) :
    (s.inTake c b).outStream = s.outStream := rfl
@[simp] theorem State.inTake_raised (s : State) (c : Ctrl) (b : Sample) : (s.inTake c b).raised = s.raised := rfl
@[simp] theorem State.inTake_run (s : State) (c : Ctrl) (b : Sample) : (s.inTake c b).run = s.run := rfl
@[simp] theorem State.inTake_params (s : State) (c : Ctrl) (b : Sample) : (s.inTake c b).params = s.params := rfl
@[simp] theorem State.inTake_draws (s : State) (c : Ctrl) (b : Sample) : (s.inTake c b).draws = s.draws := rfl
@[simp] theorem State.inTake_script (s : State) (c : Ctrl) (b : Sample) : (s.inTake c b).script = s.script := rfl

@[simp] theorem State.loadOut_ctrl (s : State) (v : Byte) : (s.loadOut v).ctrl = s.ctrl := rfl
@[simp] theorem State.loadOut_out (s : State) (v : Byte) : (s.loadOut v).out = some v := rfl
@[simp] theorem State.loadOut_fault (s : State) (v : Byte) : (s.loadOut v).fault = s.fault := rfl
@[simp] theorem State.loadOut_inHist (s : State) (v : Byte) : (s.loadOut v).inHist = s.inHist := rfl
@[simp] theorem State.loadOut_outHist (s : State) (v : Byte) : (s.loadOut v).outHist = s.outHist := rfl
@[simp] theorem State.loadOut_outStream (s : State) (v : Byte) : (s.loadOut v).outStream = s.outStream := rfl
@[simp] theorem State.loadOut_raised (s : State) (v : Byte) : (s.loadOut v).raised = s.raised := rfl
@[simp] theorem State.loadOut_run (s : State) (v : Byte) : (s.loadOut v).run = s.run := rfl
@[simp] theorem State.loadOut_params (s : State) (v : Byte) : (s.loadOut v).params = s.params := rfl
@[simp] theorem State.loadOut_draws (s : State) (v : Byte) : (s.loadOut v).draws = s.draws := rfl
@[simp] theorem State.loadOut_script (s : State) (v : Byte) : (s.loadOut v).script = s.script := rfl

@[simp] theorem State.handOver_ctrl (s : State) (v : Byte) : (s.handOver v).ctrl = s.ctrl := rfl
@[simp] theorem State.handOver_out (s : State) (v : Byte) : (s.handOver v).out = none := rfl
@[simp] theorem State.handOver_fault (s : State) (v : Byte) : (s.handOver v).fault = s.fault := rfl
@[simp] theorem State.handOver_inHist (s : State) (v : Byte) : (s.handOver v).inHist = s.inHist := rfl
@[simp] theorem State.handOver_outHist (s : State) (v : Byte) : (s.handOver v).outHist = s.outHist ++ [v] := rfl
@[simp] theorem State.handOver_outStream (s : State) (v : Byte) : (s.handOver v).outStream = s.outStream ++ [v] := rfl
@[simp] theorem State.handOver_raised (s : State) (v : Byte) : (s.handOver v).raised = s.raised := rfl
@[simp] theorem State.handOver_run (s : State) (v : Byte) : (s.handOver v).run = s.run := rfl
@[simp] theorem State.handOver_params (s : State) (v : Byte) : (s.handOver v).params = s.params := rfl
@[simp] theorem State.handOver_draws (s : State) (v : Byte) : (s.handOver v).draws = s.draws := rfl
@[simp] theorem State.handOver_script (s : State) (v : Byte) : (s.handOver v).script = s.script := rfl

@[simp] theorem State.writeCtrl_ctrl (s : State) (v : Ctrl) : (s.writeCtrl v).ctrl = some v := rfl
@[simp] theorem State.writeCtrl_out (s : State) (v : Ctrl) : (s.writeCtrl v).out = s.out := rfl
@[simp] theorem State.writeCtrl_fault (s : State) (v : Ctrl) : (s.writeCtrl v).fault = s.fault := rfl
@[simp] theorem State.writeCtrl_inHist (s : State) (v : Ctrl) : (s.writeCtrl v).inHist = s.inHist := rfl
@[simp] theorem State.writeCtrl_outHist (s : State) (v : Ctrl) : (s.writeCtrl v).outHist = s.outHist := rfl
@[simp] theorem State.writeCtrl_outStream (s : State) (v : Ctrl) : (s.writeCtrl v).outStream = s.outStream := rfl
@[simp] theorem State.writeCtrl_raised (s : State) (v : Ctrl) : (s.writeCtrl v).raised = s.raised := rfl
@[simp] theorem State.writeCtrl_run (s : State) (v : Ctrl) : (s.writeCtrl v).run = some s.markHere := rfl
@[simp] theorem State.writeCtrl_params (s : State) (v : Ctrl) : (s.writeCtrl v).params = s.params := rfl
@[simp] theorem State.writeCtrl_draws (s : State) (v : Ctrl) : (s.writeCtrl v).draws = s.draws := rfl
@[simp] theorem State.writeCtrl_script (s : State) (v : Ctrl) : (s.writeCtrl v).script = s.script := rfl

@[simp] theorem State.enterFault_ctrl (s : State) (b : Sample) : (s.enterFault b).ctrl = s.ctrl := rfl
@[simp] theorem State.enterFault_out (s : State) (b : Sample) : (s.enterFault b).out = s.out := rfl
@[simp] theorem State.enterFault_fault (s : State) (b : Sample) : (s.enterFault b).fault = faultAfter s.fault b := rfl
@[simp] theorem State.enterFault_inHist (s : State) (b : Sample) : (s.enterFault b).inHist = s.inHist := rfl
@[simp] theorem State.enterFault_outHist (s : State) (b : Sample) : (s.enterFault b).outHist = s.outHist := rfl
@[simp] theorem State.enterFault_outStream (s : State) (b : Sample) : (s.enterFault b).outStream = s.outStream := rfl
@[simp] theorem State.enterFault_raised (s : State) (b : Sample) :
    (s.enterFault b).raised = s.raised ++ (pushCause s.ctrl b).toList := rfl
@[simp] theorem State.enterFault_run (s : State) (b : Sample) : (s.enterFault b).run = s.run := rfl
@[simp] theorem State.enterFault_params (s : State) (b : Sample) : (s.enterFault b).params = s.params := rfl
@[simp] theorem State.enterFault_draws (s : State) (b : Sample) :
    (s.enterFault b).draws = if (pushCause s.ctrl b).isSome then s.draws + 1 else s.draws := rfl
@[simp] theorem State.enterFault_script (s : State) (b : Sample) : (s.enterFault b).script = s.script := rfl

@[simp] theorem State.clear_ctrl (s : State) : (s.clear).ctrl = none := rfl
@[simp] theorem State.clear_out (s : State) : (s.clear).out = none := rfl
@[simp] theorem State.clear_fault (s : State) : (s.clear).fault = false := rfl
@[simp] theorem State.clear_inHist (s : State) : (s.clear).inHist = [] := rfl
@[simp] theorem State.clear_outHist (s : State) : (s.clear).outHist = [] := rfl
@[simp] theorem State.clear_outStream (s : State) : (s.clear).outStream = s.outStream := rfl
@[simp] theorem State.clear_raised (s : State) : (s.clear).raised = [] := rfl
@[simp] theorem State.clear_run (s : State) : (s.clear).run = none := rfl
@[simp] theorem State.clear_params (s : State) : (s.clear).params = s.params := rfl
@[simp] theorem State.clear_draws (s : State) : (s.clear).draws = s.draws + 1 := rfl
@[simp] theorem State.clear_script (s : State) : (s.clear).script = s.script := rfl

@[simp] theorem State.markHere_pushes (s : State) : s.markHere.pushes = s.nIn := rfl
@[simp] theorem State.markHere_pops (s : State) : s.markHere.pops = s.nOut := rfl
@[simp] theorem State.markHere_registerEmpty (s : State) : s.markHere.registerEmpty = !s.outValid := rfl

end Sys2Proof.Machine
end

