-- ==== Sys2Proof/Laws/Ops.lean ====
section
/-! SUPPORT. What each shared operation can do, said once. -/

namespace Sys2Proof.Machine

theorem pushCause_finite {c : Ctrl} {b : Sample} (h : isFinite64 b = true) : pushCause (some c) b = none := by
  simp [pushCause, h]

theorem pushCause_nonfinite {c : Ctrl} {b : Sample} (h : isFinite64 b = false) :
    pushCause (some c) b = some (.nonFiniteSample b) := by
  simp [pushCause, h]

theorem pushCause_unwritten (b : Sample) : pushCause none b = some .ctrlUnwritten := rfl

theorem selectedCtrl_some {s : State} {c : Ctrl} (h : s.ctrl = some c) : s.selectedCtrl = c := by
  simp [State.selectedCtrl, h]

theorem encodeSample_finite {b : Sample} (P : Config.Params) (c : Ctrl) (v : Byte) (h : isFinite64 b = true) :
    encodeSample P c b v = (opByte P c b, false) := by
  simp [encodeSample, h]

theorem encodeSample_nonfinite {b : Sample} (P : Config.Params) (c : Ctrl) (v : Byte) (h : isFinite64 b = false) :
    encodeSample P c b v = (v, true) := by
  simp [encodeSample, h]

/-- Everything an acceptance does: which fields it leaves, and what it writes into the others. -/
theorem accept_eq (s : State) (c : Ctrl) (b : Sample) :
    s.accept c b = { s with
      inHist := s.inHist ++ [(c, b)]
      out := some (encodeSample s.params c b (Config.freePushByte s.draws)).1
      fault := faultAfter s.fault b
      raised := s.raised ++ (pushCause s.ctrl b).toList
      draws := if (pushCause s.ctrl b).isSome then s.draws + 1 else s.draws } := rfl

/-- An operation row either accepts its sample, in the state where it is selected and the register empty, or does nothing. -/
theorem operate_cases (s : State) (c : Ctrl) (b : Sample) :
    (s.out = none ∧ s.ctrl = some c ∧ s.operate c b = s.accept c b) ∨ s.operate c b = s := by
  unfold State.operate
  split
  case isTrue h =>
    left
    simp [State.outValid] at h
    exact ⟨h.1, h.2, rfl⟩
  case isFalse => exact .inr rfl

/-- A PUSH either accepts its sample into the empty register or does nothing. -/
theorem execPush_cases (b : Sample) (s : State) :
    (s.out = none ∧ execPush b s = .next (s.accept s.selectedCtrl b)) ∨ (s.out ≠ none ∧ execPush b s = .next s) := by
  cases h : s.out <;> simp [execPush, State.outValid, h]

/-- A POP either hands the held byte over or does nothing. -/
theorem execPop_cases (s : State) :
    (∃ v, s.out = some v ∧ execPop s = .next (s.handOver v)) ∨ (s.out = none ∧ execPop s = .next s) := by
  cases h : s.out <;> simp [execPop, h]

end Sys2Proof.Machine
end

