-- ==== Sys2Proof/Laws/PerInstr.lean ====
section
/-! SUPPORT. Statements made once per instruction, about its encoding. -/

namespace Sys2Proof.Laws

/-- The word that spells an instruction is in the transaction-level form (30_encoding.md R54) and asks, at the clock
level (20_memory.md R33), for that instruction alone. -/
def EncodedAlone.Statement (i : Instr) : Prop := (encode i).wellFormed = true ∧ actions (encode i) = [i]

theorem EncodedAlone.lin8 (b : Sample) : EncodedAlone.Statement (.lin8 b) := ⟨rfl, rfl⟩

theorem EncodedAlone.ulaw (b : Sample) : EncodedAlone.Statement (.ulaw b) := ⟨rfl, rfl⟩

theorem EncodedAlone.lin8i (b : Sample) : EncodedAlone.Statement (.lin8i b) := ⟨rfl, rfl⟩

theorem EncodedAlone.ulawi (b : Sample) : EncodedAlone.Statement (.ulawi b) := ⟨rfl, rfl⟩

theorem EncodedAlone.reset : EncodedAlone.Statement .reset := ⟨rfl, rfl⟩

theorem EncodedAlone.cfgwr (v : Ctrl) : EncodedAlone.Statement (.cfgwr v) :=
  ⟨by simp [encode, HostWord.wellFormed, List.range, List.range.loop],
    by simp [encode, actions, Edge.rst, Edge.ctrlWe, Edge.inValid, Edge.outReady]⟩

theorem EncodedAlone.push (b : Sample) : EncodedAlone.Statement (.push b) :=
  ⟨by simp [encode, HostWord.wellFormed, List.range, List.range.loop],
    by simp [encode, actions, Edge.rst, Edge.ctrlWe, Edge.inValid, Edge.outReady]⟩

theorem EncodedAlone.pop : EncodedAlone.Statement .pop := ⟨rfl, rfl⟩

end Sys2Proof.Laws
end

