-- ==== Sys2Proof/Laws/Step.lean ====
section
/-! SUPPORT. What an instruction, a list of actions and a step can do. -/

namespace Sys2Proof.Machine

/-- The four operation rows are one shared operation under their CTRL words. -/
theorem exec_operationOf (c : Ctrl) (b : Sample) (s : State) : exec (operationOf c b) s = .next (s.operate c b) := by
  have : c = 0b00#2 ∨ c = 0b01#2 ∨ c = 0b10#2 ∨ c = 0b11#2 := by revert c; decide
  rcases this with rfl | rfl | rfl | rfl <;> rfl

/-- The ways one instruction can change the state. -/
theorem exec_cases {i : Instr} {s t : State} (h : exec i s = .next t) :
    t = s
      ∨ (∃ c b, s.out = none ∧ (s.ctrl = some c ∨ s.ctrl = none) ∧ t = s.accept c b
          ∧ (i = .push b ∨ s.ctrl = some c ∧ i = operationOf c b))
      ∨ (i = .pop ∧ ∃ v, s.out = some v ∧ t = s.handOver v)
      ∨ (∃ v, i = .cfgwr v ∧ t = s.writeCtrl v)
      ∨ (i = .reset ∧ t = s.clear) := by
  have op : ∀ c b, operationOf c b = i → (.next (s.operate c b) : Host.Outcome State Fault Refusal) = .next t →
      t = s ∨ ∃ c b, s.out = none ∧ (s.ctrl = some c ∨ s.ctrl = none) ∧ t = s.accept c b
          ∧ (i = .push b ∨ s.ctrl = some c ∧ i = operationOf c b) := by
    intro c b hi hn
    injection hn with hn
    rcases operate_cases s c b with ⟨ho, hc, he⟩ | he
    · exact .inr ⟨c, b, ho, .inl hc, by rw [← hn, he], .inr ⟨hc, hi.symm⟩⟩
    · exact .inl (by rw [← hn, he])
  cases i with
  | lin8 b => exact (op 0b00#2 b rfl h).elim .inl (fun h => .inr (.inl h))
  | ulaw b => exact (op 0b01#2 b rfl h).elim .inl (fun h => .inr (.inl h))
  | lin8i b => exact (op 0b10#2 b rfl h).elim .inl (fun h => .inr (.inl h))
  | ulawi b => exact (op 0b11#2 b rfl h).elim .inl (fun h => .inr (.inl h))
  | reset => exact .inr (.inr (.inr (.inr ⟨rfl, by injection h with h; exact h.symm⟩)))
  | cfgwr v => exact .inr (.inr (.inr (.inl ⟨v, rfl, by injection h with h; exact h.symm⟩)))
  | push b =>
    rcases execPush_cases b s with ⟨ho, he⟩ | ⟨-, he⟩
    · refine .inr (.inl ⟨s.selectedCtrl, b, ho, ?_, ?_, .inl rfl⟩)
      · cases hc : s.ctrl <;> simp [State.selectedCtrl, hc]
      · exact (Host.Outcome.next.inj (he.symm.trans h)).symm
    · exact .inl (Host.Outcome.next.inj (he.symm.trans h)).symm
  | pop =>
    rcases execPop_cases s with ⟨v, ho, he⟩ | ⟨-, he⟩
    · exact .inr (.inr (.inl ⟨rfl, v, ho, (Host.Outcome.next.inj (he.symm.trans h)).symm⟩))
    · exact .inl (Host.Outcome.next.inj (he.symm.trans h)).symm

/-- Every instruction answers a next state. -/
theorem exec_next (i : Instr) (s : State) : ∃ t, exec i s = .next t := by
  cases i with
  | pop => rcases execPop_cases s with ⟨v, -, h⟩ | ⟨-, h⟩ <;> exact ⟨_, h⟩
  | _ => exact ⟨_, rfl⟩

@[simp] theorem runAll_nil (s : State) : runAll [] s = .next s := rfl

theorem runAll_cons {i : Instr} {s t : State} (rest : List Instr) (h : exec i s = .next t) :
    runAll (i :: rest) s = runAll rest t := by
  simp [runAll, h]

@[simp] theorem runAll_single (i : Instr) (s : State) : runAll [i] s = exec i s := by
  obtain ⟨t, h⟩ := exec_next i s
  rw [runAll_cons [] h, runAll_nil, h]

/-- An invariant that every instruction keeps is kept by a list of actions. -/
theorem runAll_induct {Q : State → Prop} (keep : ∀ i s t, exec i s = .next t → Q s → Q t) :
    ∀ (is : List Instr) (s t : State), runAll is s = .next t → Q s → Q t
  | [], _, _, h, hs => by injection h with h; exact h ▸ hs
  | i :: rest, s, t, h, hs => by
    obtain ⟨u, hu⟩ := exec_next i s
    exact runAll_induct keep rest u t (runAll_cons rest hu ▸ h) (keep i s u hu hs)

/-- The two readings of a word agree: what decodes as one action is that action alone at the clock level. -/
theorem actions_of_decode {w : HostWord} {i : Instr} (h : decode w = .ok i) : actions w = [i] := by
  cases w with
  | ctrlWord c b => simpa [decode, actions] using h
  | strobeWord e =>
    simp only [decode] at h
    split_ifs at h <;> (injection h with h; subst h; simp_all [actions, Edge.rst, Edge.ctrlWe, Edge.inValid, Edge.outReady])

theorem step_idle {s : State} (h : s.script = []) : step s = .next s := by
  simp [step, State.fetch, h]

theorem step_word {s : State} {w : HostWord} {rest : List HostWord} (h : s.script = w :: rest) :
    step s = runAll (actions w) { s with script := rest } := by
  simp [step, State.fetch, h]

/-- One step of a run. -/
theorem run_next {s t : State} (k : Nat) (h : step s = .next t) :
    Host.Core.run Sys2Proof.core (k + 1) s = Host.Core.run Sys2Proof.core k t := by
  have hc : Sys2Proof.core.step s = .next t := h
  simp only [Host.Core.run, hc]

end Sys2Proof.Machine
end

