-- ==== Sys2Proof/Laws/Units.lean ====
section
/-! SUPPORT. One lemma per unit: its result as an integer, with the narrowing done once. -/

namespace Sys2Proof.Machine

theorem clamp_cases (v lo hi : Int) :
    (v < lo ∧ clamp v lo hi = lo) ∨ (lo ≤ v ∧ hi < v ∧ clamp v lo hi = hi) ∨ (lo ≤ v ∧ v ≤ hi ∧ clamp v lo hi = v) := by
  unfold clamp
  split_ifs <;> omega

theorem clamp_bounds {lo hi : Int} (v : Int) (h : lo ≤ hi) : lo ≤ clamp v lo hi ∧ clamp v lo hi ≤ hi := by
  rcases clamp_cases v lo hi with h' | h' | h' <;> omega

/-- LINQ8's byte is its clamped sum: the narrowing to 8 bits loses nothing. -/
theorem linq8_toNat (ties : Config.Ties) (b : Sample) :
    ((linq8 ties b).toNat : Int) = clamp ((fmulc b 127).roundInt ties + 128) 0 255 := by
  obtain ⟨h0, h1⟩ := clamp_bounds ((fmulc b 127).roundInt ties + 128) (show (0 : Int) ≤ 255 by decide)
  unfold linq8
  rw [BitVec.toNat_ofInt, Int.emod_eq_of_lt h0 (by omega), Int.toNat_of_nonneg h0]

/-- NORM16's pcm16 is its clamped truncation: the narrowing to 16 bits loses nothing. -/
theorem norm16_toInt (b : Sample) : (norm16 b).toInt = clamp (fmulc b 32767).trunc (-32768) 32767 := by
  obtain ⟨h0, h1⟩ := clamp_bounds (fmulc b 32767).trunc (show (-32768 : Int) ≤ 32767 by decide)
  unfold norm16
  rw [BitVec.toInt_ofInt, Int.bmod_def]
  split_ifs <;> omega

/-- The magnitude as an integer, in each branch (the value is never negative, so nothing is lost in taking a natural). -/
theorem magnitude_cases (p : Pcm16) :
    (p.toInt < 0 ∧ (magnitude p : Int) = 131 - p.toInt) ∨ (0 ≤ p.toInt ∧ (magnitude p : Int) = 132 + p.toInt) := by
  unfold magnitude
  split_ifs <;> omega

end Sys2Proof.Machine
end

