-- ==== Sys2Proof/Tests/Slice0.lean ====
section
/-! SUPPORT. The model's own tests, expected results from 95_test_vectors.md and the words of 30_encoding.md, and for each
statement with hypotheses a witness that meets them. -/

namespace Sys2Proof.Tests

open Sys2Proof Sys2Proof.Machine

/-- After reset and CFGWR `c`. -/
def ready (c : Ctrl) : State := 
  { State.reset with ctrl := some c, run := some { pushes := 0, pops := 0, registerEmpty := true } }

/-- `ready c` with the byte `v` held. -/
def full (c : Ctrl) (v : Byte) : State := { ready c with out := some v }

/-- One instruction's next state, if it answers one. -/
def after (i : Instr) (s : State) : Option State :=
  match exec i s with
  | .next t => some t
  | _ => none

/-- The byte held after one step on a script of one word. -/
def outAfterStep (s : State) : Option Byte :=
  match step s with
  | .next t => t.out
  | _ => none

/-! ## Decoding: words written out from 30_encoding.md R51 and R54 -/

theorem test_decode_lin8 : decode (.ctrlWord 0b00#2 7#64) = .ok (.lin8 7#64) := rfl
theorem test_decode_ulaw : decode (.ctrlWord 0b01#2 7#64) = .ok (.ulaw 7#64) := rfl
theorem test_decode_lin8i : decode (.ctrlWord 0b10#2 7#64) = .ok (.lin8i 7#64) := rfl
theorem test_decode_ulawi : decode (.ctrlWord 0b11#2 7#64) = .ok (.ulawi 7#64) := rfl
theorem test_decode_reset : decode (.strobeWord ⟨0b1000#4, 0, 0⟩) = .ok .reset := rfl
theorem test_decode_cfgwr : decode (.strobeWord ⟨0b0100#4, 0b10#2, 0⟩) = .ok (.cfgwr 0b10#2) := rfl
theorem test_decode_push : decode (.strobeWord ⟨0b0010#4, 0, 0x3FF0000000000000#64⟩) = .ok (.push 0x3FF0000000000000#64) := rfl
theorem test_decode_pop : decode (.strobeWord ⟨0b0001#4, 0, 0⟩) = .ok .pop := rfl
theorem test_decode_idle : decode (.strobeWord ⟨0b0000#4, 0, 0⟩) = .error .idle := rfl
theorem test_decode_several : decode (.strobeWord ⟨0b0111#4, 0, 0⟩) = .error .severalStrobes := rfl

/-- The eight rows of opcode_table.json at their own widths, and the whole-byte reading. -/
theorem test_table_words :
    decodeTableWord 2 0 = some (.lin8 0) ∧ decodeTableWord 2 1 = some (.ulaw 0) ∧ decodeTableWord 2 2 = some (.lin8i 0)
      ∧ decodeTableWord 2 3 = some (.ulawi 0) ∧ decodeTableWord 4 8 = some .reset ∧ decodeTableWord 4 4 = some (.cfgwr 0)
      ∧ decodeTableWord 4 2 = some (.push 0) ∧ decodeTableWord 4 1 = some .pop ∧ decodeTableWord 8 8 = some .reset
      ∧ decodeTableWord 8 1 = some (.ulaw 0) := by decide

theorem test_table_rejects :
    decodeTableWord 2 4 = none ∧ decodeTableWord 4 0 = none ∧ decodeTableWord 4 16 = none ∧ decodeTableWord 8 5 = none := by
  decide

/-! ## WellFormed: an ill-formed term for each check -/

theorem test_illformed_lin8 : (Instr.lin8 0x7FF0000000000000#64).wellFormed = false := by decide
theorem test_illformed_ulaw : (Instr.ulaw 0xFFF0000000000000#64).wellFormed = false := by decide
theorem test_illformed_lin8i : (Instr.lin8i 0x7FF8000000000000#64).wellFormed = false := by decide
theorem test_illformed_ulawi : (Instr.ulawi 0x7FF0000000000001#64).wellFormed = false := by decide
theorem test_illformed_push : (Instr.push 0xFFFFFFFFFFFFFFFF#64).wellFormed = false := by decide
theorem test_wellformed_largest_finite :
    (Instr.push 0x7FEFFFFFFFFFFFFF#64).wellFormed = true ∧ (Instr.push 0xFFEFFFFFFFFFFFFF#64).wellFormed = true := by decide
theorem test_illformed_words :
    (HostWord.strobeWord ⟨0b0000#4, 0, 0⟩).wellFormed = false ∧ (HostWord.strobeWord ⟨0b0011#4, 0, 0⟩).wellFormed = false := by
  decide

/-! ## Units: 95_test_vectors.md sections 2.1 to 2.4 -/

theorem test_compand_zero_region : compand 0#16 = 0xFF#8 ∧ compand (BitVec.ofInt 16 (-1)) = 0x7F#8 := by decide
theorem test_compand_minus_one_at_work :
    compand (BitVec.ofInt 16 (-4)) = 0x7F#8 ∧ compand (BitVec.ofInt 16 (-31612)) = 0x01#8 := by decide
theorem test_compand_extremes :
    compand (BitVec.ofInt 16 (-32768)) = 0x00#8 ∧ compand (BitVec.ofInt 16 32635) = 0x80#8 := by decide
theorem test_norm16_rounded_product :
    norm16 0xBF00002000400080#64 = BitVec.ofInt 16 (-1) ∧ norm16 0x3F20002000400080#64 = 4#16 := by decide
theorem test_norm16_truncates_and_clamps :
    norm16 0xBFB999999999999A#64 = BitVec.ofInt 16 (-3276) ∧ norm16 0xFFE1CCF385EBC8A0#64 = BitVec.ofInt 16 (-32768)
      ∧ norm16 0x8000000000000001#64 = 0#16 := by decide
theorem test_linq8_ties :
    linq8 .even 0xBF70204081020408#64 = 128#8 ∧ linq8 .away 0xBF70204081020408#64 = 127#8
      ∧ linq8 .even 0x3F942850A142850A#64 = 130#8 ∧ linq8 .away 0x3F942850A142850A#64 = 131#8 := by decide
theorem test_linq8_edges :
    linq8 .even 0xBFF00FF972474539#64 = 1#8 ∧ linq8 .even 0xBFF0102040810204#64 = 0#8
      ∧ linq8 .even 0x7FEFFFFFFFFFFFFF#64 = 255#8 := by decide
theorem test_bitinv : bitinv 0x35#8 = 0xCA#8 := by decide

/-! ## Instructions: 95_test_vectors.md sections 2.5 and 4 -/

theorem test_lin8_half : (after (.lin8 0x3FE0000000000000#64) (ready 0b00#2)).bind State.out = some 0xC0#8 := by decide
theorem test_lin8_not_selected : after (.lin8 0#64) (ready 0b01#2) = some (ready 0b01#2) := by decide
theorem test_ulaw_minus_tenth : (after (.ulaw 0xBFB999999999999A#64) (ready 0b01#2)).bind State.out = some 0x35#8 := by decide
theorem test_ulaw_small_negative : (after (.ulaw 0xBF0000200040007F#64) (ready 0b01#2)).bind State.out = some 0xFF#8 := by decide
theorem test_lin8i_default : (after (.lin8i 0xBFF0000000000000#64) (ready 0b10#2)).bind State.out = some 0x01#8 := by decide
theorem test_lin8i_inverting :
    (after (.lin8i 0xBFF0000000000000#64) { ready 0b10#2 with params := ⟨.even, true⟩ }).bind State.out = some 0xFE#8 := by
  decide
theorem test_ulawi_half : (after (.ulawi 0x3FE0000000000000#64) (ready 0b11#2)).bind State.out = some 0x70#8 := by decide
theorem test_ulawi_full_scale : (after (.ulawi 0xBFF0000000000000#64) (ready 0b11#2)).bind State.out = some 0xFF#8 := by decide
theorem test_push_records :
    (after (.push 0x3FB999999999999A#64) (ready 0b01#2)).map (fun t => (t.out, t.inHist))
      = some (some 0xB5#8, [(0b01#2, 0x3FB999999999999A#64)]) := by decide
/-- Program P5 (b), step 5: a byte is held, FAULT is set, the fault is recorded. -/
theorem test_push_infinity :
    (after (.push 0x7FF0000000000000#64) (ready 0b01#2)).map (fun t => (t.out.isSome, t.fault, t.raised))
      = some (true, true, [.nonFiniteSample 0x7FF0000000000000#64]) := by decide
theorem test_pop_hands_over :
    (after .pop (full 0b11#2 0x70#8)).map (fun t => (t.out, t.outHist)) = some (none, [0x70#8]) := by decide
theorem test_pop_empty : after .pop (ready 0b11#2) = some (ready 0b11#2) := by decide
/-- Program P2, step 4: a pending byte survives CFGWR, and the run that begins there knows of it. -/
theorem test_cfgwr_keeps_pending_byte :
    after (.cfgwr 0b00#2) (full 0b11#2 0x70#8)
      = some { full 0b00#2 0x70#8 with run := some { pushes := 0, pops := 0, registerEmpty := false } } := by decide
theorem test_reset_forgets :
    (after .reset { full 0b11#2 0x70#8 with fault := true, outHist := [1#8] }).map
      (fun t => (t.ctrl, t.out, t.fault, t.outHist)) = some (none, none, false, []) := by decide

/-- Program P4, edge 3: POP, then PUSH under the old CTRL, then CFGWR, in one step. -/
theorem test_step_three_actions :
    (match step { full 0b01#2 0xB5#8 with script := [.strobeWord ⟨0b0111#4, 0b11#2, 0xBFB999999999999A#64⟩] } with
      | .next t => some (t.ctrl, t.out, t.outHist)
      | _ => none) = some (some 0b11#2, some 0x35#8, [0xB5#8]) := by decide
/-- Program P4, edge 4: a sample offered while the register is full is not taken. -/
theorem test_step_back_pressure :
    outAfterStep { full 0b11#2 0x35#8 with script := [.strobeWord ⟨0b0010#4, 0, 0x3FB999999999999A#64⟩] } = some 0x35#8 := by
  decide
/-- The ULAW row, fetched as the first instruction after reset, encodes the sample 0.0. -/
theorem test_fetch_ulaw_row : outAfterStep (State.reset.withFetchWord 2 1) = some 0xFF#8 := by decide
/-- The RESET row, fetched as the first instruction after reset, leaves the block reset. -/
theorem test_fetch_reset_row : outAfterStep (State.reset.withFetchWord 4 8) = none := by decide

/-! ## Witnesses: hypotheses met together -/

theorem witness_DecodeAndEncodeAgree :
    decode (.ctrlWord 0b11#2 7#64) = .ok (.ulawi 7#64) ∧ decode (.strobeWord ⟨0b0100#4, 0b11#2, 5#64⟩) = .ok (.cfgwr 0b11#2) :=
  ⟨rfl, rfl⟩

theorem witness_StepRunsDecodedInstruction :
    ({ ready 0b01#2 with script := [encode (.push 0)] } : State).script = [encode (.push 0)]
      ∧ decode (encode (.push 0)) = .ok (.push 0) := ⟨rfl, rfl⟩

theorem witness_IdleStepChangesNothing :
    State.reset.script = [] ∧ ({ State.reset with script := [.strobeWord ⟨0b0000#4, 1, 1⟩] } : State).script
      = .strobeWord ⟨0b0000#4, 1, 1⟩ :: [] := ⟨rfl, rfl⟩

theorem witness_ResetOverridesOtherStrobes :
    ({ full 0b01#2 1 with script := [.strobeWord ⟨0b1111#4, 1, 1⟩] } : State).script = .strobeWord ⟨0b1111#4, 1, 1⟩ :: []
      ∧ Edge.rst ⟨0b1111#4, 1, 1⟩ = true := by decide

theorem witness_HsbIsFloorLog2 : 0 < 1 ∧ hsb 1 = 0 ∧ hsb 32899 = 15 := by decide

/-- A product that is a tie (the discarded part is half a unit), a subnormal one, and the largest finite sample. -/
theorem witness_FmulcRoundsToNearestEven :
    isFinite64 0x3FF0000000000020#64 = true ∧ significandOf 0x3FF0000000000020#64 * 127 % 2 ^ 6 = 2 ^ 5
      ∧ (fmulc 0x3FF0000000000020#64 127).exp = scaleOf 0x3FF0000000000020#64 + 6
      ∧ isFinite64 0x0000000000000001#64 = true ∧ fmulc 0x0000000000000001#64 127 = ⟨false, 127, -1074⟩
      ∧ isFinite64 0x7FEFFFFFFFFFFFFF#64 = true := by decide

theorem witness_TruncGoesTowardZero :
    0 ≤ (Product.mk false 5 (-1)).value ∧ (Product.mk true 5 (-1)).value ≤ 0 ∧ (Product.mk true 0 0).value = 0 := by
  norm_num [Product.value]

/-- A tie under each rule: 1/2 goes to 0 and to 1. -/
theorem witness_RoundIntGoesToNearest :
    |(Product.mk false 1 (-1)).value - ((Product.mk false 1 (-1)).roundInt .even : ℚ)| = 1 / 2
      ∧ |(Product.mk false 1 (-1)).value - ((Product.mk false 1 (-1)).roundInt .away : ℚ)| = 1 / 2 := by
  have h0 : (Product.mk false 1 (-1)).roundInt .even = 0 := by decide
  have h1 : (Product.mk false 1 (-1)).roundInt .away = 1 := by decide
  rw [h0, h1]
  norm_num [Product.value]

/-- The clauses meet at 127 and -128. -/
theorem witness_Linq8Saturates :
    (fmulc 0x3FF0000000000000#64 127).roundInt .even = 127 ∧ (fmulc 0xBFF0102040810204#64 127).roundInt .even = -128
      ∧ (fmulc 0x3FF8000000000000#64 127).roundInt .even = 190 ∧ (fmulc 0xBFF8000000000000#64 127).roundInt .even = -190 := by
  decide

/-- Products exactly 32768, exactly -32768, and just inside. -/
theorem witness_Norm16Saturates :
    32768 ≤ (fmulc 0x3FF0002000400080#64 32767).value ∧ (fmulc 0xBFF0002000400080#64 32767).value ≤ -32768
      ∧ |(fmulc 0x3FF0000000000000#64 32767).value| < 32768 := by
  have h1 : fmulc 0x3FF0002000400080#64 32767 = ⟨false, 2 ^ 53, -38⟩ := by decide +kernel
  have h2 : fmulc 0xBFF0002000400080#64 32767 = ⟨true, 2 ^ 53, -38⟩ := by decide +kernel
  have h3 : fmulc 0x3FF0000000000000#64 32767 = ⟨false, 32767 * 2 ^ 38, -38⟩ := by decide +kernel
  rw [h1, h2, h3]
  norm_num [Product.value, abs_lt, zpow_neg]

/-- The values of 1.0 and -1.0. -/
theorem val64_one : val64 0x3FF0000000000000#64 = 1 ∧ val64 0xBFF0000000000000#64 = -1 := by
  have h1 : signOf 0x3FF0000000000000#64 = false ∧ significandOf 0x3FF0000000000000#64 = 2 ^ 52
      ∧ scaleOf 0x3FF0000000000000#64 = -52 := by decide
  have h2 : signOf 0xBFF0000000000000#64 = true ∧ significandOf 0xBFF0000000000000#64 = 2 ^ 52
      ∧ scaleOf 0xBFF0000000000000#64 = -52 := by decide
  norm_num [val64, h1, h2, zpow_neg]

theorem witness_ConversionsAreMonotone :
    isFinite64 0xBFF0000000000000#64 = true ∧ isFinite64 0x3FF0000000000000#64 = true
      ∧ val64 0xBFF0000000000000#64 ≤ val64 0x3FF0000000000000#64 := by
  rw [val64_one.1, val64_one.2]
  exact ⟨by decide, by decide, by norm_num⟩

theorem witness_LogicalRangeStaysInside :
    isFinite64 0xBFF0000000000000#64 = true ∧ |val64 0xBFF0000000000000#64| ≤ 1 := by
  rw [val64_one.2]
  exact ⟨by decide, by norm_num⟩

theorem witness_SmallSamplesGiveZero :
    (0x3F0000200040007F#64).toNat % 2 ^ 63 < 0x3F00002000400080 ∧ (0xBF0000200040007F#64).toNat % 2 ^ 63 < 0x3F00002000400080 := by
  decide

theorem witness_Norm16IsOddBelowTheClamp :
    isFinite64 0x3FF0000000000000#64 = true ∧ |(fmulc 0x3FF0000000000000#64 32767).value| < 32768 :=
  ⟨by decide, witness_Norm16Saturates.2.2⟩

theorem witness_MagnitudeOfEachBranch :
    (BitVec.ofInt 16 (-32768)).toInt < 0 ∧ (BitVec.ofInt 16 (-1)).toInt < 0 ∧ 0 ≤ (0#16).toInt ∧ 0 ≤ (BitVec.ofInt 16 32767).toInt := by
  decide

theorem witness_MagnitudeNeedsSixteenBits :
    0 ≤ (0#16).toInt ∧ 32636 ≤ (BitVec.ofInt 16 32636).toInt ∧ (BitVec.ofInt 16 (-32637)).toInt ≤ -32637 := by decide

theorem witness_SegmentOfMagnitude :
    132 ≤ 255 ∧ 255 ≤ 32899 ∧ segment 132 = 0 ∧ segment 255 = 0 ∧ segment 256 = 1 ∧ segment 32767 = 7 ∧ segment 32768 = 8
      ∧ segment 32899 = 8 := by decide

theorem witness_CodeFields :
    segment (magnitude (BitVec.ofInt 16 32635)) ≤ 7 ∧ 8 ≤ segment (magnitude (BitVec.ofInt 16 32636)) := by decide

theorem witness_SaturatedCodes :
    8 ≤ segment (magnitude (BitVec.ofInt 16 32636)) ∧ 8 ≤ segment (magnitude (BitVec.ofInt 16 (-32637))) := by decide

theorem witness_CompandMirrors : 0 ≤ (0#16).toInt ∧ 0 ≤ (BitVec.ofInt 16 32767).toInt := by decide

theorem witness_CompandMonotoneInEachRegion :
    132 ≤ 32767 ∧ 32767 ≤ 32768 ∧ 32768 ≤ 32899
      ∧ 0 ≤ (123#16).toInt ∧ (123#16).toInt ≤ (124#16).toInt
      ∧ (BitVec.ofInt 16 (-32768)).toInt ≤ (BitVec.ofInt 16 (-1)).toInt ∧ (BitVec.ofInt 16 (-1)).toInt < 0 := by decide

/-- The ends of the map: code value 127 at both extremes, code value 0 at both sides of zero. -/
theorem witness_CompandClosedForm :
    127 ≤ 127 ∧ 0 ≤ (BitVec.ofInt 16 31612).toInt ∧ compand (BitVec.ofInt 16 31612) = BitVec.ofNat 8 (0xFF - 127)
      ∧ (BitVec.ofInt 16 (-31613)).toInt < 0 ∧ compand (BitVec.ofInt 16 (-31613)) = BitVec.ofNat 8 (0x7F - 127)
      ∧ compand (BitVec.ofInt 16 3) = BitVec.ofNat 8 (0xFF - 0) ∧ compand (BitVec.ofInt 16 (-4)) = BitVec.ofNat 8 (0x7F - 0) := by
  decide

/-- -4 is the last of its code, -3 is not, -32768 has no operand after it. -/
theorem witness_MinusOneMattersAtTheLastOperand :
    (BitVec.ofInt 16 (-4)).toInt < 0 ∧ compand (BitVec.ofInt 16 (-5)) ≠ compand (BitVec.ofInt 16 (-4))
      ∧ compand (BitVec.ofInt 16 (-4)) = compand (BitVec.ofInt 16 (-3)) ∧ (BitVec.ofInt 16 (-32768)).toInt < 0 := by decide

theorem witness_BitinvRestoresFields : (0x00#8).toNat < (0xFF#8).toNat := by decide

theorem witness_InvertFlagComplements : Config.defaults.linearInvert = false := rfl

theorem witness_Lin8Executes :
    isFinite64 0xBFF0000000000000#64 = true ∧ (ready 0b00#2).ctrl = some 0b00#2 ∧ (ready 0b00#2).out = none := by decide

theorem witness_Lin8iExecutes :
    isFinite64 0xBFF0000000000000#64 = true ∧ (ready 0b10#2).ctrl = some 0b10#2 ∧ (ready 0b10#2).out = none := by decide

theorem witness_UlawExecutes :
    isFinite64 0x7FEFFFFFFFFFFFFF#64 = true ∧ (ready 0b01#2).ctrl = some 0b01#2 ∧ (ready 0b01#2).out = none := by decide

theorem witness_UlawiExecutes :
    isFinite64 0x8000000000000000#64 = true ∧ (ready 0b11#2).ctrl = some 0b11#2 ∧ (ready 0b11#2).out = none := by decide

theorem witness_UnselectedOperationDoesNothing :
    State.reset.ctrl ≠ some 0b01#2 ∧ (full 0b01#2 0).out ≠ none := by decide

theorem witness_NonFiniteSampleSetsFault :
    isFinite64 0x7FF0000000000000#64 = false ∧ (ready 0b10#2).ctrl = some 0b10#2 ∧ (ready 0b10#2).out = none := by decide

theorem witness_PushPerformsTheSelectedOperation : (full 0b11#2 0).ctrl = some 0b11#2 := rfl

theorem witness_PushOfFiniteSample :
    isFinite64 0x0000000000000001#64 = true ∧ (ready 0b11#2).ctrl = some 0b11#2 ∧ (ready 0b11#2).out = none := by decide

theorem witness_PushUnderUnwrittenCtrl :
    State.reset.ctrl = none ∧ State.reset.out = none ∧ isFinite64 0x0000000000000000#64 = true := by decide

theorem witness_PopHandsTheByteOver : (full 0b01#2 0xFF#8).out = some 0xFF#8 ∧ State.reset.out = none := ⟨rfl, rfl⟩

theorem witness_CfgwrWritesCtrl : isFinite64 0x0000000000000000#64 = true ∧ State.reset.out = none := by decide

/-- The instructions of the frames and whole-machine rules, each answering a next state. -/
theorem witness_frames :
    (∃ t, exec (.push 0) (ready 0b01#2) = .next t) ∧ (∃ t, exec (.lin8 0) (ready 0b00#2) = .next t)
      ∧ (∃ t, exec (.ulaw 0) (ready 0b01#2) = .next t) ∧ (∃ t, exec (.lin8i 0) (ready 0b10#2) = .next t)
      ∧ (∃ t, exec (.ulawi 0) (ready 0b11#2) = .next t) ∧ (∃ t, exec .pop (full 0b01#2 1) = .next t)
      ∧ (∃ t, exec (.cfgwr 0) State.reset = .next t) ∧ (∃ t, exec .reset (full 0b01#2 1) = .next t) :=
  ⟨⟨_, rfl⟩, ⟨_, rfl⟩, ⟨_, rfl⟩, ⟨_, rfl⟩, ⟨_, rfl⟩, ⟨_, rfl⟩, ⟨_, rfl⟩, ⟨_, rfl⟩⟩

theorem witness_AcceptingInstructionsFrame :
    isFinite64 0#64 = true ∧ ∃ t, exec (.push 0) (ready 0b01#2) = .next t := ⟨by decide, _, rfl⟩

theorem witness_CtrlChangesOnlyByCfgwrAndReset : ∃ t, exec (.cfgwr 0b11#2) (ready 0b01#2) = .next t := ⟨_, rfl⟩

theorem witness_FaultIsSticky : Instr.pop ≠ .reset ∧ ∃ t, exec .pop { full 0b01#2 1 with fault := true } = .next t :=
  ⟨by decide, _, rfl⟩

theorem witness_FaultGatesNothing : ∃ t, exec (.push 0) (ready 0b01#2) = .next t := ⟨_, rfl⟩

theorem witness_PositionsAdvanceByOne : Instr.push 0 ≠ .reset ∧ ∃ t, exec (.push 0) (ready 0b01#2) = .next t :=
  ⟨by decide, _, rfl⟩

theorem witness_ParametersAreNeverWritten : ∃ t, exec .reset (full 0b01#2 1) = .next t := ⟨_, rfl⟩

/-- A state with a byte handed over, a byte held and no fault, which meets the invariant. -/
def midRun : State :=
  { ready 0b01#2 with
    inHist := [(0b01#2, 0x3FB999999999999A#64), (0b01#2, 0xBFB999999999999A#64)]
    outHist := [0xB5#8], outStream := [0xB5#8], out := some 0x35#8 }

theorem midRun_inv : midRun.Inv := by
  refine ⟨?_, by decide, by decide, List.suffix_rfl, by decide, ?_⟩
  rotate_left
  · intro m hm
    injection hm with hm
    subst hm
    refine ⟨by decide, by decide, by decide, fun p hp => ?_⟩
    rcases List.mem_cons.1 hp with rfl | hp
    · rfl
    · rw [List.mem_singleton.1 hp]
      rfl
  refine .cons ?_ (.cons ?_ .nil)
  · intro _; decide
  · intro _; decide

theorem witness_StepKeepsInvariant : midRun.Inv ∧ ∃ t, step { midRun with script := [encode .pop] } = .next t :=
  ⟨midRun_inv, _, rfl⟩

theorem witness_OneBytePerSampleInOrder : midRun.Inv ∧ midRun.fault = false ∧ 0 < midRun.nOut ∧ midRun.out = some 0x35#8 :=
  ⟨midRun_inv, rfl, by decide, rfl⟩

/-- Program P2 of 95_test_vectors.md before step 7: its second CFGWR (step 4) found the byte of the first run pending. -/
def p2BeforeStep7 : State :=
  { (full 0b11#2 0x70#8).inTake 0b11#2 0x3FE0000000000000#64 |>.writeCtrl 0b00#2 with
    out := some 0xC0#8, outHist := [0x70#8]
    inHist := [(0b11#2, 0x3FE0000000000000#64), (0b00#2, 0x3FE0000000000000#64)] }

/-- R120: after step 7 of P2 one PUSH and two POPs stand since its second CFGWR, and the register was not empty then. -/
theorem test_run_begun_with_a_byte_pending_is_not_complete (n : Nat) :
    ∃ t, exec .pop p2BeforeStep7 = .next t ∧ t.out = none ∧ t.nIn = 1 + 1 ∧ t.nOut = 0 + 2 ∧ ¬ t.runComplete n := by
  refine ⟨_, rfl, rfl, rfl, rfl, ?_⟩
  rintro ⟨m, hm, he, -⟩
  injection hm with hm
  subst hm
  exact absurd he (by decide)

/-- R120: with no CFGWR since RESET no run is complete. -/
theorem test_no_cfgwr_no_complete_run (n : Nat) : ¬ State.reset.runComplete n := by
  rintro ⟨m, hm, -⟩
  exact nomatch hm

/-- R122, program P6: RESET and CFGWR alone are the complete run of no samples. -/
theorem test_empty_run_is_complete : (State.reset.writeCtrl 0b01#2).runComplete 0 :=
  ⟨_, rfl, rfl, rfl, rfl, rfl, rfl⟩

/-- `midRun` with its second byte handed over: a complete run of two samples. -/
theorem witness_OneBytePerSampleInOrder_complete_run :
    (midRun.handOver 0x35#8).Inv ∧ (midRun.handOver 0x35#8).fault = false ∧ (midRun.handOver 0x35#8).runComplete 2 := by
  obtain ⟨h1, h2, h3, -, h5, h6⟩ := midRun_inv
  refine ⟨⟨h1, h2, h3, List.suffix_rfl, h5, fun m hm => ?_⟩, rfl, ⟨_, rfl, rfl, rfl, rfl, rfl, rfl⟩⟩
  obtain ⟨a, b, c, d⟩ := h6 m hm
  exact ⟨a, Nat.le_trans b (by decide), c, d⟩

/-- Ready with the register empty, ready because it is being emptied, and not ready. -/
theorem witness_SampleAcceptedExactlyWhenReady :
    Edge.rst ⟨0b0010#4, 0, 0⟩ = false ∧ Edge.inValid ⟨0b0010#4, 0, 0⟩ = true ∧ Edge.rst ⟨0b0011#4, 0, 0⟩ = false
      ∧ Edge.inValid ⟨0b0011#4, 0, 0⟩ = true ∧ (ready 0b01#2).inReady false = true ∧ (full 0b01#2 1).inReady true = true
      ∧ (full 0b01#2 1).inReady false = false
      ∧ ∃ t, step { full 0b01#2 1 with script := [.strobeWord ⟨0b0010#4, 0, 0⟩] } = .next t :=
  ⟨by decide, by decide, by decide, by decide, rfl, rfl, rfl, _, rfl⟩

theorem witness_RunEncodesTheSequence :
    (∀ b ∈ [0x3FB999999999999A#64, 0xBFB999999999999A#64], isFinite64 b = true)
      ∧ State.reset.out = none ∧ State.reset.fault = false
      ∧ ({ State.reset with script := runWords 0b01#2 [0x3FB999999999999A#64, 0xBFB999999999999A#64] } : State).script
          = runWords 0b01#2 [0x3FB999999999999A#64, 0xBFB999999999999A#64] ++ [] :=
  ⟨by simp; decide, rfl, rfl, by simp⟩

theorem witness_ByteDependsOnSampleAndCtrlOnly :
    isFinite64 0#64 = true ∧ (ready 0b11#2).ctrl = some 0b11#2
      ∧ ({ ready 0b11#2 with fault := true, outHist := [1#8] } : State).ctrl = some 0b11#2
      ∧ (ready 0b11#2).params = ({ ready 0b11#2 with fault := true, outHist := [1#8] } : State).params := by decide

theorem witness_DutifulHostSeesNoFault :
    (∀ i ∈ actions (.strobeWord ⟨0b0111#4, 0, 0x3FF0000000000000#64⟩), i.wellFormed = true)
      ∧ (full 0b01#2 1).ctrl ≠ none ∧ (full 0b01#2 1).clean = true := by decide

end Sys2Proof.Tests
end

section
/-! The accessors of the state in terms of its fields (10_state.md R16, R19), and the values after reset (R23). -/

namespace Sys2Proof.Machine

/-- `OUT_VALID = 0` is an empty holding register (10_state.md section 4). -/
theorem State.outValid_eq_false_iff (s : State) : s.outValid = false ↔ s.out = none :=
  Option.isSome_eq_false_iff.trans Option.isNone_iff_eq_none

/-- Nothing has been accepted exactly when `IN_HIST` is empty (10_state.md R19). -/
theorem State.nIn_eq_zero_iff (s : State) : s.nIn = 0 ↔ s.inHist = [] := List.length_eq_zero_iff

/-- Nothing has been handed over exactly when `OUT_HIST` is empty (10_state.md R19). -/
theorem State.nOut_eq_zero_iff (s : State) : s.nOut = 0 ↔ s.outHist = [] := List.length_eq_zero_iff

@[simp] theorem State.reset_ctrl : State.reset.ctrl = none := rfl
@[simp] theorem State.reset_out : State.reset.out = none := rfl
@[simp] theorem State.reset_fault : State.reset.fault = false := rfl
@[simp] theorem State.reset_inHist : State.reset.inHist = [] := rfl
@[simp] theorem State.reset_outHist : State.reset.outHist = [] := rfl

/-- Settles O6: the fields as reset writes them, and `OUT_VALID`, `n_in` and `n_out` from the fields they are read off. -/
theorem resetValues : Obligations.ResetValues :=
  ⟨State.reset_ctrl, (State.outValid_eq_false_iff _).mpr State.reset_out, State.reset_fault,
    State.reset_inHist, State.reset_outHist,
    (State.nIn_eq_zero_iff _).mpr State.reset_inHist, (State.nOut_eq_zero_iff _).mpr State.reset_outHist⟩

end Sys2Proof.Machine
end

section
/-! The unit COMPAND in arithmetic (42_ulaw_compand.md): the magnitude as an integer, the segment as the bit length of
`magnitude[15:8]`, the pre-mask word as a number, the mask as a subtraction. -/

namespace Sys2Proof.Machine

/-! ### The magnitude and the mask (R74 to R76) -/

/-- The operand is a 16-bit two's complement integer (30_encoding.md R46). -/
theorem pcm16_bounds (p : Pcm16) : -32768 ≤ p.toInt ∧ p.toInt ≤ 32767 :=
  ⟨BitVec.le_toInt p, Int.le_of_lt_add_one BitVec.toInt_lt⟩

theorem magnitude_bounds (p : Pcm16) : 132 ≤ magnitude p ∧ magnitude p ≤ 32899 := by
  have := pcm16_bounds p
  have := magnitude_cases p
  omega

theorem signMask_of_neg {p : Pcm16} (h : p.toInt < 0) : signMask p = 0x7F := if_pos h

theorem signMask_of_nonneg {p : Pcm16} (h : 0 ≤ p.toInt) : signMask p = 0xFF := if_neg (by omega)

/-- The one's complement magnitude of the hardware form of R74. -/
theorem toNat_not_of_neg {p : Pcm16} (h : p.toInt < 0) : ((~~~p).toNat : ℤ) = -p.toInt - 1 := by
  have hp := p.toInt_eq_toNat_cond
  have := p.isLt
  rw [BitVec.toNat_not]
  split_ifs at hp <;> omega

/-- The operand that R76 and R85 pair with `p`. -/
theorem toInt_ofInt_neg_sub_one (p : Pcm16) : (BitVec.ofInt 16 (-p.toInt - 1)).toInt = -p.toInt - 1 := by
  have := pcm16_bounds p
  exact BitVec.toInt_ofInt_eq_self (by decide) (by omega) (by omega)

theorem magnitude_ofInt_neg_sub_one {p : Pcm16} (h : 0 ≤ p.toInt) :
    magnitude (BitVec.ofInt 16 (-p.toInt - 1)) = magnitude p := by
  have := toInt_ofInt_neg_sub_one p
  have := magnitude_cases p
  have := magnitude_cases (BitVec.ofInt 16 (-p.toInt - 1))
  omega

/-- Settles O21: both branches from the magnitude as an integer, the complement form from the one's complement. -/
theorem magnitudeOfEachBranch : Obligations.MagnitudeOfEachBranch := by
  intro p
  have hb := magnitude_bounds p
  have hm := magnitude_cases p
  refine ⟨fun h => ⟨by omega, ?_, ?_, signMask_of_neg h, hb⟩, fun h => ⟨by omega, signMask_of_nonneg h, hb⟩⟩
  · rw [abs_of_neg h]
    omega
  · have := toNat_not_of_neg h
    omega

/-- Settles O22: the range of the magnitude, its bound 32767 read on the operand, and the paired operands. -/
theorem magnitudeNeedsSixteenBits : Obligations.MagnitudeNeedsSixteenBits := by
  intro p
  have hb := magnitude_bounds p
  have hm := magnitude_cases p
  exact ⟨hb.1, hb.2, by omega, by omega, magnitude_ofInt_neg_sub_one⟩

/-! ### The segment (R77) -/

/-- `hsb` is one less than the bit length, at 0 too. -/
theorem hsb_eq_size_sub_one (x : ℕ) : hsb x = (x.size : ℤ) - 1 := by
  unfold hsb
  split_ifs with h
  · subst h
    rfl
  · have : x.size = x.log2 + 1 :=
      le_antisymm (Nat.size_le.2 Nat.lt_log2_self) (Nat.lt_size.2 (Nat.log2_self_le h))
    omega

/-- A number with its leading one at bit 7 or above is eight bits longer than what stands above its low byte. -/
theorem size_eq_size_div_add_eight {x : ℕ} (h : 128 ≤ x) : x.size = (x / 256).size + 8 := by
  apply le_antisymm
  · have := Nat.lt_size_self (x / 256)
    rw [Nat.size_le, pow_add]
    omega
  · cases hs : (x / 256).size with
    | zero => exact Nat.lt_size.2 h
    | succ k =>
      have : 2 ^ k ≤ x / 256 := Nat.lt_size.1 (by omega)
      refine Nat.lt_size.2 (?_ : 2 ^ (k + 8) ≤ x)
      rw [pow_add]
      omega

/-- The OR with `0xFF` only lifts the argument of `hsb` out of the low byte. -/
theorem hsb_or_low_byte (m : ℕ) : hsb (m ||| 0xFF) = ((m / 256).size : ℤ) + 7 := by
  have hdiv : (m ||| 0xFF) / 256 = m / 256 := by
    simpa using Nat.or_div_two_pow (a := m) (b := 0xFF) (n := 8)
  have hle : 0xFF ≤ m ||| 0xFF := Nat.right_le_or
  rw [hsb_eq_size_sub_one, size_eq_size_div_add_eight (by omega), hdiv]
  omega

/-- The priority encoder of R77: the segment is the bit length of `magnitude[15:8]`. -/
theorem segment_eq_size (m : ℕ) : segment m = (m / 256).size := by
  rw [segment, hsb_or_low_byte]
  omega

theorem segment_le_iff {m k : ℕ} : segment m ≤ k ↔ m < 2 ^ (k + 8) := by
  rw [segment_eq_size, Nat.size_le, pow_add]
  exact Nat.div_lt_iff_lt_mul (by decide)

theorem lt_segment_iff {m k : ℕ} : k < segment m ↔ 2 ^ (k + 8) ≤ m := by
  rw [← not_le, segment_le_iff, not_lt]

theorem segment_mono {m m' : ℕ} (h : m ≤ m') : segment m ≤ segment m' :=
  segment_le_iff.2 (h.trans_lt (segment_le_iff.1 le_rfl))

/-- Saturation begins at bit 15 of the magnitude (R79). -/
theorem eight_le_segment_iff (m : ℕ) : 8 ≤ segment m ↔ 32768 ≤ m := lt_segment_iff

/-- With its leading one at bit 7 or above, the magnitude has it at bit `segment + 7`. -/
theorem size_eq_segment_add_eight {m : ℕ} (h : 128 ≤ m) : m.size = segment m + 8 := by
  rw [segment_eq_size, size_eq_size_div_add_eight h]

theorem mantissa_eq (m : ℕ) : mantissa m = m / 2 ^ (segment m + 3) % 16 := by
  rw [mantissa, Nat.shiftRight_eq_div_pow]
  exact Nat.and_two_pow_sub_one_eq_mod _ 4

/-- Settles O23: every form of the segment from the bit length of `m / 256`, the mantissa by its own cut. -/
theorem segmentOfMagnitude : Obligations.SegmentOfMagnitude := by
  intro m hlo hhi
  have hor : hsb (m ||| 0xFF) = (segment m : ℤ) + 7 := by rw [hsb_or_low_byte, segment_eq_size]
  have hle : segment m ≤ 8 := segment_le_iff.2 (by omega)
  have hsat : segment m = 8 ↔ 32768 ≤ m := by
    rw [← eight_le_segment_iff]
    omega
  refine ⟨by omega, by omega, by omega, hle, fun h => ?_, fun h => ?_, ?_, ?_, hsat, mantissa_eq m⟩
  · exact Nat.le_zero.1 (segment_le_iff.2 (by omega))
  · rw [hsb_eq_size_sub_one, size_eq_segment_add_eight (by omega)]
    omega
  · rw [hsb_eq_size_sub_one, segment_eq_size]
    omega
  · rw [hsat, Nat.testBit_eq_decide_div_mod_eq, decide_eq_true_iff]
    omega

/-! ### The pre-mask word (R79, R80) -/

theorem mantissa_lt (m : ℕ) : mantissa m < 16 := by
  rw [mantissa_eq]
  exact Nat.mod_lt _ (by decide)

/-- The five bits from the leading one down are that one and the mantissa; in segment 0 the leading one is bit 7, because
the bias keeps every magnitude above 128 (R80). -/
theorem mantissa_add_sixteen {m : ℕ} (h : 128 ≤ m) : mantissa m + 16 = m / 2 ^ (segment m + 3) := by
  have hsize := size_eq_segment_add_eight h
  have hlo : 2 ^ 4 * 2 ^ (segment m + 3) ≤ m := by
    rw [← pow_add]
    exact Nat.lt_size.1 (by omega)
  have hhi : m < 2 ^ 5 * 2 ^ (segment m + 3) := by
    rw [← pow_add]
    exact Nat.size_le.1 (by omega)
  have h16 := (Nat.le_div_iff_mul_le (by positivity)).2 hlo
  have h32 := (Nat.div_lt_iff_lt_mul (by positivity)).2 hhi
  rw [mantissa_eq]
  omega

theorem premask_of_saturated {m : ℕ} (h : 32768 ≤ m) : premask m = 127 := if_pos ((eight_le_segment_iff m).2 h)

theorem premask_of_unsaturated {m : ℕ} (h : m < 32768) : premask m = 16 * segment m + mantissa m := by
  have hs : ¬ 8 ≤ segment m := fun hs => by
    have := (eight_le_segment_iff m).1 hs
    omega
  rw [premask, if_neg hs, ← Nat.shiftLeft_add_eq_or_of_lt (mantissa_lt m), Nat.shiftLeft_eq]
  omega

theorem premask_le (m : ℕ) : premask m ≤ 127 := by
  rcases lt_or_ge m 32768 with h | h
  · have := mantissa_lt m
    have : segment m ≤ 7 := segment_le_iff.2 h
    rw [premask_of_unsaturated h]
    omega
  · exact (premask_of_saturated h).le

/-- Saturation gives the word of segment 7, mantissa 15, which begins at `31 * 2^10` (R79). -/
theorem premask_eq_max_iff {m : ℕ} (h : 128 ≤ m) : premask m = 127 ↔ 31744 ≤ m := by
  rcases lt_or_ge m 32768 with hm | hm
  · have hman := mantissa_add_sixteen h
    have hlt := mantissa_lt m
    have hle : segment m ≤ 7 := segment_le_iff.2 hm
    rw [premask_of_unsaturated hm]
    constructor
    · intro he
      have hseg : segment m = 7 := by omega
      rw [hseg] at hman
      omega
    · intro hge
      have hseg : segment m = 7 := le_antisymm hle (lt_segment_iff.2 (by omega))
      rw [hseg] at hman ⊢
      omega
  · exact iff_of_true (premask_of_saturated hm) (by omega)

/-- A larger magnitude has a larger segment, or the same one and no smaller mantissa (R87). -/
theorem premask_mono {m m' : ℕ} (h : 128 ≤ m) (hm : m ≤ m') : premask m ≤ premask m' := by
  rcases lt_or_ge m' 32768 with h' | h'
  · rw [premask_of_unsaturated (hm.trans_lt h'), premask_of_unsaturated h']
    rcases (segment_mono hm).lt_or_eq with hlt | heq
    · have := mantissa_lt m
      omega
    · have hman := mantissa_add_sixteen h
      have hman' := mantissa_add_sixteen (h.trans hm)
      have : m / 2 ^ (segment m + 3) ≤ m' / 2 ^ (segment m + 3) := Nat.div_le_div_right hm
      rw [← heq] at hman' ⊢
      omega
  · exact (premask_le m).trans_eq (premask_of_saturated h').symm

/-! ### The code (R79 to R81) -/

/-- The final `& 0xFF` changes nothing (R81). -/
theorem compand_eq_xor (p : Pcm16) :
    compand p = BitVec.ofNat 8 (premask (magnitude p)) ^^^ BitVec.ofNat 8 (signMask p) := by
  rw [compand, BitVec.ofNat_and, BitVec.ofNat_xor]
  exact BitVec.and_allOnes

/-- XOR with `n` ones is the subtraction from them: what both masks do to the pre-mask word. -/
theorem xor_ones {n u : ℕ} (h : u < 2 ^ n) : u ^^^ (2 ^ n - 1) = 2 ^ n - 1 - u := by
  have hx := congrArg BitVec.toNat (BitVec.xor_allOnes (x := BitVec.ofNat n u))
  rwa [BitVec.toNat_xor, BitVec.toNat_not, BitVec.toNat_allOnes, BitVec.toNat_ofNat, Nat.mod_eq_of_lt h] at hx

/-- The code as a number in each region: the pre-mask word reversed, below the mask of the region (R80). -/
theorem compand_toNat_cases (p : Pcm16) :
    (p.toInt < 0 ∧ (compand p).toNat = 127 - premask (magnitude p))
      ∨ (0 ≤ p.toInt ∧ (compand p).toNat = 255 - premask (magnitude p)) := by
  have hu := premask_le (magnitude p)
  have hx : (compand p).toNat = premask (magnitude p) ^^^ (signMask p % 2 ^ 8) := by
    rw [compand_eq_xor, BitVec.toNat_xor, BitVec.toNat_ofNat, BitVec.toNat_ofNat, Nat.mod_eq_of_lt (by omega)]
  refine (lt_or_ge p.toInt 0).imp (fun h => ⟨h, ?_⟩) (fun h => ⟨h, ?_⟩)
  · rw [hx, signMask_of_neg h]
    exact xor_ones (n := 7) (by omega)
  · rw [hx, signMask_of_nonneg h]
    exact xor_ones (n := 8) (by omega)

/-- Settles O25: the segment's bound read on the operand, and each extreme code as the pre-mask word 127 in its region. -/
theorem saturatedCodes : Obligations.SaturatedCodes := by
  intro p
  have hb := magnitude_bounds p
  have hm := magnitude_cases p
  have hsat := eight_le_segment_iff (magnitude p)
  have hmax := premask_eq_max_iff (m := magnitude p) (by omega)
  have hu := premask_le (magnitude p)
  have hc := compand_toNat_cases p
  refine ⟨hsat, by omega, fun h => ?_, ?_, ?_⟩
  · rw [compand_eq_xor, premask_of_saturated (hsat.1 h), BitVec.ofNat_xor]
  · rw [← BitVec.toNat_inj, BitVec.toNat_ofNat]
    omega
  · rw [← BitVec.toNat_inj, BitVec.toNat_ofNat]
    omega

/-- The paired operand has the same magnitude and the other mask, so its code differs in bit 7 alone (R85). -/
theorem compand_ofInt_neg_sub_one {p : Pcm16} (h : 0 ≤ p.toInt) :
    compand (BitVec.ofInt 16 (-p.toInt - 1)) = compand p ^^^ 0x80#8 := by
  have hneg : (BitVec.ofInt 16 (-p.toInt - 1)).toInt < 0 := by
    rw [toInt_ofInt_neg_sub_one]
    omega
  rw [compand_eq_xor, compand_eq_xor p, magnitude_ofInt_neg_sub_one h, signMask_of_neg hneg, signMask_of_nonneg h,
    BitVec.xor_assoc]
  rfl

/-- Settles O26: the mirror from the equal magnitudes and the two masks, the six values by evaluation. -/
theorem compandMirrors : Obligations.CompandMirrors :=
  ⟨fun _ => compand_ofInt_neg_sub_one, by decide, by decide, by decide, by decide, by decide, by decide⟩

/-- In the non-negative region the magnitude grows with the operand, and the mask reverses the pre-mask word. -/
theorem compand_antitone_of_nonneg {p q : Pcm16} (hp : 0 ≤ p.toInt) (hpq : p.toInt ≤ q.toInt) :
    (compand q).toNat ≤ (compand p).toNat := by
  have hmag : magnitude p ≤ magnitude q := by
    have := magnitude_cases p
    have := magnitude_cases q
    omega
  have := premask_mono (by have := magnitude_bounds p; omega) hmag
  have := compand_toNat_cases p
  have := compand_toNat_cases q
  omega

/-- In the negative region the magnitude falls as the operand grows, so the code rises. -/
theorem compand_monotone_of_neg {p q : Pcm16} (hpq : p.toInt ≤ q.toInt) (hq : q.toInt < 0) :
    (compand p).toNat ≤ (compand q).toNat := by
  have hmag : magnitude q ≤ magnitude p := by
    have := magnitude_cases p
    have := magnitude_cases q
    omega
  have := premask_mono (by have := magnitude_bounds q; omega) hmag
  have := compand_toNat_cases p
  have := compand_toNat_cases q
  omega

/-- Settles O27: pre-mask word and segment are monotone, and each region inherits its direction from its magnitude; the
end values are those of O26. -/
theorem compandMonotoneInEachRegion : Obligations.CompandMonotoneInEachRegion := by
  obtain ⟨-, zero, minusOne, largest, smallest, -, -⟩ := compandMirrors
  exact ⟨fun _ _ h hm _ => ⟨premask_mono (by omega) hm, segment_mono hm⟩,
    fun _ _ => compand_antitone_of_nonneg, fun _ _ => compand_monotone_of_neg, zero, largest, minusOne, smallest⟩

end Sys2Proof.Machine
end

section
/-! The unit BITINV (43_bitinv.md): the complement as a negation, an XOR and a subtraction, what it restores of a u-law
code, and where the operations perform it. -/

namespace Sys2Proof.Machine

/-! ### The three forms (R89) -/

/-- The `& 0xFF` changes nothing in a byte. -/
theorem bitinv_eq_not (c : Byte) : bitinv c = ~~~c := BitVec.and_allOnes

theorem bitinv_eq_xor (c : Byte) : bitinv c = c ^^^ 0xFF#8 := by
  rw [bitinv_eq_not]
  exact BitVec.xor_allOnes.symm

theorem bitinv_toNat (c : Byte) : (bitinv c).toNat = 255 - c.toNat := by
  rw [bitinv_eq_not]
  exact BitVec.toNat_not

theorem bitinv_getLsbD (c : Byte) {k : ℕ} (h : k < 8) : (bitinv c).getLsbD k = !c.getLsbD k := by
  rw [bitinv_eq_not, BitVec.getLsbD_not, decide_eq_true h, Bool.true_and]

/-- Settles O31: each form by its own lemma, the three values by evaluation. -/
theorem bitinvComplementsEveryBit : Obligations.BitinvComplementsEveryBit :=
  fun c => ⟨rfl, bitinv_eq_xor c, bitinv_toNat c, fun _ => bitinv_getLsbD c, by decide, by decide, by decide⟩

/-! ### The order of the codes (R91) -/

theorem bitinv_involutive : Function.Involutive bitinv := fun c => by
  rw [bitinv_eq_not, bitinv_eq_not, BitVec.not_not]

theorem bitinv_lt_bitinv {c d : Byte} (h : c.toNat < d.toNat) : (bitinv d).toNat < (bitinv c).toNat := by
  have := d.isLt
  rw [bitinv_toNat, bitinv_toNat]
  omega

/-- Bit 0 of a byte is never its own complement. -/
theorem bitinv_ne_self (c : Byte) : bitinv c ≠ c := fun h => by
  have := bitinv_getLsbD c (k := 0) (by decide)
  rw [h] at this
  exact (Bool.eq_not_self _).mp this

/-- The mirror of R85 flips bit 7 alone. -/
theorem bitinv_ne_mirror (c : Byte) : bitinv c ≠ c ^^^ 0x80#8 := by
  rw [bitinv_eq_xor, Ne, BitVec.xor_right_inj]
  decide

/-! ### The fields of a u-law code restored (R91) -/

/-- The pre-mask word carries the segment, 7 when saturated, above its low four bits (R79, R80). -/
theorem premask_div_sixteen (m : ℕ) : premask m / 16 = if 8 ≤ segment m then 7 else segment m := by
  have hsat := eight_le_segment_iff m
  rcases lt_or_ge m 32768 with h | h
  · have := mantissa_lt m
    rw [if_neg (by omega), premask_of_unsaturated h]
    omega
  · rw [if_pos (by omega), premask_of_saturated h]

/-- The low four bits of the pre-mask word are the mantissa, 15 when saturated (R79, R80). -/
theorem premask_mod_sixteen (m : ℕ) : premask m % 16 = if 8 ≤ segment m then 15 else mantissa m := by
  have hsat := eight_le_segment_iff m
  rcases lt_or_ge m 32768 with h | h
  · have := mantissa_lt m
    rw [if_neg (by omega), premask_of_unsaturated h]
    omega
  · rw [if_pos (by omega), premask_of_saturated h]

/-- The complement of a code is the pre-mask word itself, with bit 7 added below zero. -/
theorem bitinv_compand_toNat_cases (p : Pcm16) :
    (p.toInt < 0 ∧ (bitinv (compand p)).toNat = 128 + premask (magnitude p))
      ∨ (0 ≤ p.toInt ∧ (bitinv (compand p)).toNat = premask (magnitude p)) := by
  have := premask_le (magnitude p)
  have := compand_toNat_cases p
  rw [bitinv_toNat]
  omega

/-- Bit 7 of a byte is its upper half. -/
theorem getLsbD_seven_iff (c : Byte) : c.getLsbD 7 = true ↔ 128 ≤ c.toNat := by
  rw [← decide_eq_true_iff (p := 128 ≤ c.toNat)]
  exact Eq.congr_left (c.msb_eq_getLsbD_last.symm.trans c.msb_eq_decide)

/-- Settles O32: the order of the codes from the negation and the XOR, the fields from the pre-mask word laid bare. -/
theorem bitinvRestoresFields : Obligations.BitinvRestoresFields := by
  refine ⟨bitinv_involutive, bitinv_involutive.bijective, fun _ _ => bitinv_lt_bitinv, bitinv_ne_mirror, fun p => ?_⟩
  have hu := premask_le (magnitude p)
  have hc := bitinv_compand_toNat_cases p
  refine ⟨?_, ?_, ?_⟩
  · rw [getLsbD_seven_iff]
    omega
  · rw [← premask_div_sixteen]
    omega
  · rw [← premask_mod_sixteen]
    omega

/-! ### The inversion of an operation (R92) -/

theorem lin8iByte_of_linearInvert {P : Config.Params} (h : P.linearInvert = true) (b : Sample) :
    lin8iByte P b = bitinv (lin8Byte P b) := if_pos h

theorem lin8iByte_of_not_linearInvert {P : Config.Params} (h : P.linearInvert = false) (b : Sample) :
    lin8iByte P b = lin8Byte P b := if_neg (by simp [h])

/-- One sample tells the two settings apart: no byte is its own complement. -/
theorem lin8iByte_eq_bitinv_iff (P : Config.Params) (b : Sample) :
    lin8iByte P b = bitinv (lin8Byte P b) ↔ P.linearInvert = true := by
  refine ⟨fun h => ?_, fun h => lin8iByte_of_linearInvert h b⟩
  by_contra hP
  rw [lin8iByte_of_not_linearInvert (Bool.eq_false_of_not_eq_true hP)] at h
  exact bitinv_ne_self _ h.symm

/-! The byte of each CTRL value (R94). -/

@[simp] theorem opByte_lin8 (P : Config.Params) (b : Sample) : opByte P 0b00#2 b = lin8Byte P b := rfl
@[simp] theorem opByte_ulaw (P : Config.Params) (b : Sample) : opByte P 0b01#2 b = ulawByte b := rfl
@[simp] theorem opByte_lin8i (P : Config.Params) (b : Sample) : opByte P 0b10#2 b = lin8iByte P b := rfl
@[simp] theorem opByte_ulawi (P : Config.Params) (b : Sample) : opByte P 0b11#2 b = ulawiByte b := rfl

/-- Settles O33: u-law by definition; linear by the parameter, which any one sample reveals. -/
theorem invertFlagComplements : Obligations.InvertFlagComplements := by
  intro P
  simp only [opByte_lin8, opByte_ulaw, opByte_lin8i, opByte_ulawi, ← bitinv_eq_xor, lin8iByte_eq_bitinv_iff]
  exact ⟨fun _ => rfl, forall_const _, lin8iByte_of_not_linearInvert⟩

end Sys2Proof.Machine
end

section
/-! The operations and POP as transactions (44_operations.md): the one effect of an operation on a finite sample, and
the example bytes of LINQ8. -/

namespace Sys2Proof.Machine

/-! ### A finite sample under a written CTRL (R94, R95) -/

/-- Nothing is raised, so neither FAULT nor the draw counter moves. -/
theorem accept_of_finite {b : Sample} {s : State} {c : Ctrl} (hb : isFinite64 b = true) (hc : s.ctrl = some c) :
    s.accept c b = { s with inHist := s.inHist ++ [(c, b)], out := some (opByte s.params c b) } := by
  rw [accept_eq, hc, pushCause_finite hb, encodeSample_finite _ _ _ hb]
  simp [faultAfter, hb]

theorem operate_of_selected {s : State} {c : Ctrl} (hc : s.ctrl = some c) (ho : s.out = none) (b : Sample) :
    s.operate c b = s.accept c b := if_pos ⟨(State.outValid_eq_false_iff s).mpr ho, hc⟩

/-- The operation that CTRL selects, on a finite sample and an empty register: the effect the four rows share. -/
theorem exec_operationOf_of_finite {b : Sample} {s : State} {c : Ctrl} (hb : isFinite64 b = true)
    (hc : s.ctrl = some c) (ho : s.out = none) :
    exec (operationOf c b) s = .next { s with
      inHist := s.inHist ++ [(c, b)], out := some (opByte s.params c b) } := by
  rw [exec_operationOf, operate_of_selected hc ho, accept_of_finite hb hc]

/-! ### The bytes of LINQ8 at 0.0, 1.0 and -1.0 (R98): the products are integers, so the tie rule is not asked -/

theorem linq8_zero (ties : Config.Ties) : linq8 ties 0x0000000000000000#64 = 0x80#8 := by
  cases ties <;> decide

theorem linq8_one (ties : Config.Ties) : linq8 ties 0x3FF0000000000000#64 = 255#8 := by
  cases ties <;> decide

theorem linq8_neg_one (ties : Config.Ties) : linq8 ties 0xBFF0000000000000#64 = 1#8 := by
  cases ties <;> decide

/-! ### The operation rows LIN8, LIN8I and ULAWI -/

/-- Settles O34: the shared effect under `CTRL = 0b00`, whose byte is LINQ8 by definition. -/
theorem lin8Executes : Obligations.Lin8Executes :=
  ⟨fun _ _ hb hc ho => exec_operationOf_of_finite hb hc ho,
    fun P => ⟨linq8_zero P.roundTies, linq8_one P.roundTies, linq8_neg_one P.roundTies⟩⟩

/-- Settles O35: the shared effect under `CTRL = 0b10`; at 0.0 the parameter decides between `0x80` and its complement. -/
theorem lin8iExecutes : Obligations.Lin8iExecutes := by
  refine ⟨fun _ _ hb hc ho => exec_operationOf_of_finite hb hc ho,
    fun ties => ⟨(lin8iByte_of_not_linearInvert rfl _).trans (linq8_zero ties), ?_⟩⟩
  calc lin8iByte ⟨ties, true⟩ 0x0000000000000000#64
      = bitinv (linq8 ties 0x0000000000000000#64) := lin8iByte_of_linearInvert rfl _
    _ = bitinv 0x80#8 := congrArg bitinv (linq8_zero ties)
    _ = 0x7F#8 := by decide

/-- Settles O37: the shared effect under `CTRL = 0b11`, and the four bytes by evaluation. -/
theorem ulawiExecutes : Obligations.UlawiExecutes :=
  ⟨fun _ _ hb hc ho => exec_operationOf_of_finite hb hc ho, by decide, by decide, by decide, by decide⟩

/-! ### POP (R96) -/

theorem execPop_of_held {s : State} {v : Byte} (h : s.out = some v) : execPop s = .next (s.handOver v) := by
  rw [execPop, h]

theorem execPop_of_empty {s : State} (h : s.out = none) : execPop s = .next s := by
  rw [execPop, h]

/-- Settles O43: POP of a held byte is the hand-over, which writes the output stream, OUT_HIST and the register alone. -/
theorem popHandsTheByteOver : Obligations.PopHandsTheByteOver :=
  ⟨fun _ _ => execPop_of_held, fun _ => execPop_of_empty⟩

end Sys2Proof.Machine
end

section
/-! Words and instructions (30_encoding.md sections 2 and 4): what the decoder answers on each strobe, and what `encode`
gives back. -/

namespace Sys2Proof.Machine

/-! ### Operation rows (R51) -/

/-- The four CTRL words. -/
theorem ctrl_cases (c : Ctrl) : c = 0b00#2 ∨ c = 0b01#2 ∨ c = 0b10#2 ∨ c = 0b11#2 := by
  revert c
  decide

theorem encode_operationOf (c : Ctrl) (b : Sample) : encode (operationOf c b) = .ctrlWord c b := by
  rcases ctrl_cases c with rfl | rfl | rfl | rfl <;> rfl

theorem decode_encode (i : Instr) : decode (encode i) = .ok i := by
  cases i <;> rfl

/-! ### STROBE words (R54) -/

/-- The four strobes of the transaction-level form, each with its action. -/
theorem decode_strobeWord_eq_ok {e : Edge} {i : Instr} (h : decode (.strobeWord e) = .ok i) :
    (e.strobe = 0b1000#4 ∧ i = .reset) ∨ (e.strobe = 0b0100#4 ∧ i = .cfgwr e.ctrlWdata)
      ∨ (e.strobe = 0b0010#4 ∧ i = .push e.inSample) ∨ (e.strobe = 0b0001#4 ∧ i = .pop) := by
  simp only [decode] at h
  split_ifs at h with h8 h4 h2 h1 h0 <;> injection h with h
  · exact .inl ⟨h8, h.symm⟩
  · exact .inr (.inl ⟨h4, h.symm⟩)
  · exact .inr (.inr (.inl ⟨h2, h.symm⟩))
  · exact .inr (.inr (.inr ⟨h1, h.symm⟩))

/-- What the decoder answers depends on the strobe: an action on the four one-hot words, a rejection on the others. -/
theorem decode_strobeWord_cases (e : Edge) :
    (e.strobe ∈ [0b1000#4, 0b0100#4, 0b0010#4, 0b0001#4] ∧ ∃ i, decode (.strobeWord e) = .ok i)
      ∨ (e.strobe = 0b0000#4 ∧ decode (.strobeWord e) = .error .idle)
      ∨ (e.strobe ∉ [0b1000#4, 0b0100#4, 0b0010#4, 0b0001#4, 0b0000#4]
          ∧ decode (.strobeWord e) = .error .severalStrobes) := by
  simp only [decode]
  split_ifs with h8 h4 h2 h1 h0
  · exact .inl ⟨by simp [h8], _, rfl⟩
  · exact .inl ⟨by simp [h4], _, rfl⟩
  · exact .inl ⟨by simp [h2], _, rfl⟩
  · exact .inl ⟨by simp [h1], _, rfl⟩
  · exact .inr (.inl ⟨h0, rfl⟩)
  · exact .inr (.inr ⟨by simp [h8, h4, h2, h1, h0], rfl⟩)

/-- The transaction-level form is one of the four one-hot words. -/
theorem wellFormed_strobeWord_iff (e : Edge) :
    HostWord.wellFormed (.strobeWord e) = true ↔ e.strobe ∈ [0b1000#4, 0b0100#4, 0b0010#4, 0b0001#4] := by
  have table : ∀ x : BitVec 4, ((List.range 4).countP (fun k => x.getLsbD k) == 1) = true
      ↔ x ∈ [0b1000#4, 0b0100#4, 0b0010#4, 0b0001#4] := by decide
  exact table e.strobe

theorem no_strobe_active_iff (x : BitVec 4) : (∀ k < 4, x.getLsbD k = false) ↔ x = 0b0000#4 := by
  revert x
  decide

/-- Two strobes are active in every word that is neither idle nor one-hot. -/
theorem two_strobes_active_iff (x : BitVec 4) :
    (∃ j k, j < k ∧ x.getLsbD j = true ∧ x.getLsbD k = true)
      ↔ x ∉ [0b1000#4, 0b0100#4, 0b0010#4, 0b0001#4, 0b0000#4] := by
  have table : ∀ x : BitVec 4, (∃ j k : Fin 4, j < k ∧ x.getLsbD j = true ∧ x.getLsbD k = true)
      ↔ x ∉ [0b1000#4, 0b0100#4, 0b0010#4, 0b0001#4, 0b0000#4] := by decide
  rw [← table x]
  constructor
  · rintro ⟨j, k, hjk, hj, hk⟩
    exact ⟨⟨j, BitVec.lt_of_getLsbD hj⟩, ⟨k, BitVec.lt_of_getLsbD hk⟩, hjk, hj, hk⟩
  · rintro ⟨j, k, hjk, hj, hk⟩
    exact ⟨j, k, hjk, hj, hk⟩

/-- Encoding what a STROBE word decodes to gives it back with the ports that no strobe asks for driven 0. -/
theorem encode_of_decode_strobeWord {e : Edge} {i : Instr} (h : decode (.strobeWord e) = .ok i) :
    encode i = .strobeWord
      { strobe := e.strobe
        ctrlWdata := if e.ctrlWe then e.ctrlWdata else 0
        inSample := if e.inValid then e.inSample else 0 } := by
  rcases decode_strobeWord_eq_ok h with ⟨hs, rfl⟩ | ⟨hs, rfl⟩ | ⟨hs, rfl⟩ | ⟨hs, rfl⟩ <;>
    simp [encode, Edge.ctrlWe, Edge.inValid, hs]

/-- Settles O2: one way by the constructors, the other way format by format. -/
theorem decodeAndEncodeAgree : Obligations.DecodeAndEncodeAgree := by
  refine ⟨decode_encode, fun w i h => ?_⟩
  cases w with
  | ctrlWord c b =>
    obtain rfl : operationOf c b = i := Except.ok.inj h
    exact .inl ⟨c, b, rfl, encode_operationOf c b⟩
  | strobeWord e => exact .inr ⟨e, rfl, encode_of_decode_strobeWord h⟩

/-- Settles O3: the decoder's three answers against the number of active strobes, each clause read on the strobe word. -/
theorem decodeTakesExactlyOneStrobe : Obligations.DecodeTakesExactlyOneStrobe := by
  intro e
  rw [wellFormed_strobeWord_iff, no_strobe_active_iff, two_strobes_active_iff]
  rcases decode_strobeWord_cases e with ⟨hs, i, h⟩ | ⟨hs, h⟩ | ⟨hs, h⟩ <;> rw [h]
  · have hne : e.strobe ≠ 0b0000#4 := fun h0 => by simp [h0] at hs
    exact ⟨iff_of_true ⟨i, rfl⟩ hs, iff_of_false nofun hne,
      iff_of_false nofun (not_not.mpr (List.mem_append_left [0b0000#4] hs))⟩
  · exact ⟨iff_of_false nofun (by simp [hs]), iff_of_true rfl hs, iff_of_false nofun (by simp [hs])⟩
  · exact ⟨iff_of_false nofun fun h1 => hs (List.mem_append_left [0b0000#4] h1),
      iff_of_false nofun fun h0 => hs (by simp [h0]), iff_of_true rfl hs⟩

/-- Settles O1: each row by evaluation of the decoder on its own bits. -/
theorem theEightRowsDecode : Obligations.TheEightRowsDecode :=
  fun _ _ => ⟨rfl, rfl, rfl, rfl, rfl, rfl, rfl, rfl⟩

end Sys2Proof.Machine
end

section
/-! Instructions and steps: the step of one word (30_encoding.md R54), RESET (70_reset_and_hazards.md R117, R118), and
that no step stops (60_exceptions.md R103). -/

namespace Sys2Proof.Machine

/-- A list of actions runs to its end, for every instruction answers a next state. -/
theorem runAll_next : ∀ (is : List Instr) (s : State), ∃ t, runAll is s = .next t
  | [], s => ⟨s, rfl⟩
  | i :: rest, s => by
    obtain ⟨u, hu⟩ := exec_next i s
    obtain ⟨t, ht⟩ := runAll_next rest u
    exact ⟨t, (runAll_cons rest hu).trans ht⟩

/-- A step is idle, or performs the actions of the word it takes from the script. -/
theorem step_cases (s : State) :
    (s.script = [] ∧ step s = .next s)
      ∨ ∃ w rest, s.script = w :: rest ∧ step s = runAll (actions w) { s with script := rest } := by
  cases h : s.script with
  | nil => exact .inl ⟨rfl, step_idle h⟩
  | cons w rest => exact .inr ⟨w, rest, rfl, step_word h⟩

/-- The step of a word that decodes. -/
theorem step_of_decode {s : State} {w : HostWord} {rest : List HostWord} {i : Instr} (hs : s.script = w :: rest)
    (hd : decode w = .ok i) : step s = exec i { s with script := rest } := by
  rw [step_word hs, actions_of_decode hd, runAll_single]

theorem actions_of_rst {e : Edge} (h : e.rst = true) : actions (.strobeWord e) = [.reset] := if_pos h

/-- Settles O4: a word that decodes is that action alone. -/
theorem stepRunsDecodedInstruction : Obligations.StepRunsDecodedInstruction :=
  fun _ _ _ _ => step_of_decode

/-- Settles O5: no word is no action, and neither is the strobe `0000`. -/
theorem idleStepChangesNothing : Obligations.IdleStepChangesNothing := by
  refine ⟨fun s => step_idle, fun s v b rest h => ?_⟩
  have idle : actions (.strobeWord ⟨0b0000#4, v, b⟩) = [] := by
    simp [actions, Edge.rst, Edge.outReady, Edge.inValid, Edge.ctrlWe]
  rw [step_word h, idle, runAll_nil]

/-- Settles O7: the fields as `State.clear` writes them. -/
theorem resetClearsTheBlock : Obligations.ResetClearsTheBlock := fun s => ⟨s.draws + 1, rfl⟩

/-- Settles O8: `RST` makes RESET the only action of the edge. -/
theorem resetOverridesOtherStrobes : Obligations.ResetOverridesOtherStrobes := by
  intro s e rest hs hr
  rw [step_word hs, actions_of_rst hr, runAll_single]

/-- Settles O55: an idle step answers the state itself, and the actions of a word run to their end. -/
theorem everyStepAnswersANextState : Obligations.EveryStepAnswersANextState := by
  intro s
  rcases step_cases s with ⟨-, h⟩ | ⟨w, rest, -, h⟩
  · exact ⟨s, h⟩
  · rw [h]
    exact runAll_next _ _

end Sys2Proof.Machine
end

section
/-! PUSH, the operation rows and CFGWR as transactions (44_operations.md sections 1 to 3, 60_exceptions.md section 2):
when an acceptance happens, and its effect for each kind of sample and of CTRL. -/

namespace Sys2Proof.Machine

/-! ### When a sample is accepted (R95) -/

theorem State.outValid_eq_true_iff (s : State) : s.outValid = true ↔ s.out ≠ none := Option.isSome_iff_ne_none

theorem execPush_of_empty {s : State} (h : s.out = none) (b : Sample) :
    execPush b s = .next (s.accept s.selectedCtrl b) := by
  rw [execPush, (State.outValid_eq_false_iff s).mpr h]
  rfl

theorem execPush_of_held {s : State} (h : s.out ≠ none) (b : Sample) : execPush b s = .next s := by
  rw [execPush, if_pos ((State.outValid_eq_true_iff s).mpr h)]

/-- An operation row that CTRL does not select, or that finds a byte held (notes/assumptions/6.md). -/
theorem operate_of_not_enabled {s : State} {c : Ctrl} (h : s.ctrl ≠ some c ∨ s.out ≠ none) (b : Sample) :
    s.operate c b = s := by
  refine if_neg fun ⟨ho, hc⟩ => ?_
  exact h.elim (· hc) (· ((State.outValid_eq_false_iff s).mp ho))

/-- While CTRL holds `c`, PUSH and the operation row of `c` accept the same samples under the same value. -/
theorem execPush_eq_operate {s : State} {c : Ctrl} (hc : s.ctrl = some c) (b : Sample) :
    execPush b s = .next (s.operate c b) := by
  by_cases ho : s.out = none
  · rw [execPush_of_empty ho, selectedCtrl_some hc, operate_of_selected hc ho]
  · rw [execPush_of_held ho, operate_of_not_enabled (.inr ho)]

theorem exec_push_eq_exec_operationOf {s : State} {c : Ctrl} (hc : s.ctrl = some c) (b : Sample) :
    exec (.push b) s = exec (operationOf c b) s := by
  rw [exec_operationOf]
  exact execPush_eq_operate hc b

/-- An acceptance always changes the state: `IN_HIST` grows. -/
theorem accept_ne_self (s : State) (c : Ctrl) (b : Sample) : s.accept c b ≠ s := by
  intro h
  have hlen := congrArg (fun t => t.inHist.length) h
  simp [accept_eq] at hlen

/-- A hand-over always changes the state: `OUT_HIST` grows. -/
theorem handOver_ne_self (s : State) (v : Byte) : s.handOver v ≠ s := by
  intro h
  have hlen := congrArg (fun t => t.outHist.length) h
  simp at hlen

/-! ### The effect of an acceptance (R95, R104, R105) -/

theorem exec_push_of_finite {s : State} {c : Ctrl} {b : Sample} (hb : isFinite64 b = true) (hc : s.ctrl = some c)
    (ho : s.out = none) :
    exec (.push b) s = .next { s with inHist := s.inHist ++ [(c, b)], out := some (opByte s.params c b) } := by
  rw [exec_push_eq_exec_operationOf hc, exec_operationOf_of_finite hb hc ho]

/-- A non-finite sample under a written CTRL: the free byte, FAULT, and the cause (R104). -/
theorem accept_of_nonfinite {s : State} {c : Ctrl} {b : Sample} (hb : isFinite64 b = false) (hc : s.ctrl = some c) :
    s.accept c b = { s with
      inHist := s.inHist ++ [(c, b)], out := some (Config.freePushByte s.draws), fault := true
      raised := s.raised ++ [.nonFiniteSample b], draws := s.draws + 1 } := by
  rw [accept_eq, hc, pushCause_nonfinite hb, encodeSample_nonfinite _ _ _ hb]
  simp [faultAfter, hb]

/-- Any sample while CTRL holds no value: the cause is `CtrlUnwritten` (R105, R110). -/
theorem accept_of_unwritten {s : State} (hc : s.ctrl = none) (c : Ctrl) (b : Sample) :
    s.accept c b = { s with
      inHist := s.inHist ++ [(c, b)]
      out := some (encodeSample s.params c b (Config.freePushByte s.draws)).1, fault := s.fault || !isFinite64 b
      raised := s.raised ++ [.ctrlUnwritten], draws := s.draws + 1 } := by
  rw [accept_eq, hc, pushCause_unwritten]
  rfl

/-- `Op` by encoding and inversion, with the units written out (R94, R98 to R101). -/
theorem opByte_eq_units (P : Config.Params) (c : Ctrl) (b : Sample) :
    opByte P c b =
      if c.getLsbD 0 then (if c.getLsbD 1 then bitinv (compand (norm16 b)) else compand (norm16 b))
      else if c.getLsbD 1 && P.linearInvert then bitinv (linq8 P.roundTies b)
      else linq8 P.roundTies b := by
  cases h : c.getLsbD 1 <;>
    simp only [opByte, encField, invField, ulawiByte, ulawByte, lin8iByte, lin8Byte, h, Bool.true_and, Bool.false_and,
      Bool.false_eq_true, reduceIte]

/-! ### The statements -/

/-- Settles O36: the shared effect under `CTRL = 0b01`, and the two bytes by evaluation. -/
theorem ulawExecutes : Obligations.UlawExecutes :=
  ⟨fun _ _ hb hc ho => exec_operationOf_of_finite hb hc ho, by decide, by decide⟩

/-- Settles O38: the four rows are one shared operation, which is not enabled here. -/
theorem unselectedOperationDoesNothing : Obligations.UnselectedOperationDoesNothing := by
  intro c b s h
  rw [exec_operationOf, operate_of_not_enabled h]

/-- Settles O39: the row accepts the sample, and PUSH is the row. -/
theorem nonFiniteSampleSetsFault : Obligations.NonFiniteSampleSetsFault := by
  intro c b s hb hc ho
  refine ⟨Config.freePushByte s.draws, s.draws + 1, ?_⟩
  rw [exec_push_eq_exec_operationOf hc, exec_operationOf, operate_of_selected hc ho, accept_of_nonfinite hb hc]
  exact ⟨rfl, rfl⟩

/-- Settles O40: both are the shared operation under the value that CTRL holds. -/
theorem pushPerformsTheSelectedOperation : Obligations.PushPerformsTheSelectedOperation :=
  fun _ b _ hc => exec_push_eq_exec_operationOf hc b

/-- Settles O41: the shared effect of a finite sample, with `Op` written out. -/
theorem pushOfFiniteSample : Obligations.PushOfFiniteSample := by
  intro c b s hb hc ho
  rw [exec_push_of_finite hb hc ho, opByte_eq_units]

/-- Settles O42: the sample is accepted under the drawn CTRL value. -/
theorem pushUnderUnwrittenCtrl : Obligations.PushUnderUnwrittenCtrl := by
  intro b s hc ho
  refine ⟨s.selectedCtrl, (encodeSample s.params s.selectedCtrl b (Config.freePushByte s.draws)).1, s.draws + 1,
    ?_, fun hb => ?_⟩
  · exact (execPush_of_empty ho b).trans (congrArg _ (accept_of_unwritten hc _ b))
  · rw [encodeSample_finite _ _ _ hb]

/-- Settles O44: CFGWR writes CTRL and the mark alone, so the next PUSH finds the value and the register as it was. -/
theorem cfgwrWritesCtrl : Obligations.CfgwrWritesCtrl :=
  fun v s => ⟨rfl, fun _ hb ho => exec_push_of_finite (s := s.writeCtrl v) hb rfl ho⟩

/-- Settles O45: the one that is not enabled leaves the state, and the other lengthens a history. -/
theorem exactlyOneOfPushAndPopIsEnabled : Obligations.ExactlyOneOfPushAndPopIsEnabled := by
  intro b s
  have hexec : exec (.push b) s = execPush b s ∧ exec .pop s = execPop s := ⟨rfl, rfl⟩
  rw [hexec.1, hexec.2]
  cases ho : s.out with
  | none =>
    have hv : s.outValid = false := (State.outValid_eq_false_iff s).mpr ho
    simp [execPush_of_empty ho, execPop_of_empty ho, accept_ne_self, hv]
  | some v =>
    have hv : s.outValid = true := (State.outValid_eq_true_iff s).mpr (by simp [ho])
    simp [execPush_of_held (s := s) (by simp [ho]), execPop_of_held ho, handOver_ne_self, hv]

/-- Settles O59: both PUSHes load `Op` of the sample under the same CTRL value and parameters. -/
theorem byteDependsOnSampleAndCtrlOnly : Obligations.ByteDependsOnSampleAndCtrlOnly := by
  intro c b s s' hb hc hc' ho ho' hp
  exact ⟨_, _, exec_push_of_finite hb hc ho, exec_push_of_finite hb hc' ho', by rw [hp], Option.some_ne_none _⟩

end Sys2Proof.Machine
end

section
/-! Frames (10_state.md R14 to R17, R24): what each instruction leaves unchanged, and which instruction moves which
field. -/

namespace Sys2Proof.Machine

/-! ### One equation per host action -/

theorem exec_reset_eq {s t : State} (h : exec .reset s = .next t) : t = s.clear := (Host.Outcome.next.inj h).symm

theorem exec_cfgwr_eq {v : Ctrl} {s t : State} (h : exec (.cfgwr v) s = .next t) : t = s.writeCtrl v :=
  (Host.Outcome.next.inj h).symm

/-- PUSH and the operation rows accept their own sample or do nothing. -/
theorem exec_accepting_cases {i : Instr} {b : Sample} {s t : State} (hi : i = .push b ∨ ∃ c, i = operationOf c b)
    (h : exec i s = .next t) : t = s ∨ ∃ c, t = s.accept c b := by
  rcases hi with rfl | ⟨c, rfl⟩
  · rcases execPush_cases b s with ⟨-, he⟩ | ⟨-, he⟩
    · exact .inr ⟨_, Host.Outcome.next.inj (h.symm.trans he)⟩
    · exact .inl (Host.Outcome.next.inj (h.symm.trans he))
  · have hst := Host.Outcome.next.inj (h.symm.trans (exec_operationOf c b s))
    rcases operate_cases s c b with ⟨-, -, he⟩ | he
    · exact .inr ⟨c, hst.trans he⟩
    · exact .inl (hst.trans he)

/-! ### Counts and histories (R14, R19) -/

theorem State.nIn_accept (s : State) (c : Ctrl) (b : Sample) : (s.accept c b).nIn = s.nIn + 1 := by
  simp [State.nIn, accept_eq]

@[simp] theorem State.nOut_accept (s : State) (c : Ctrl) (b : Sample) : (s.accept c b).nOut = s.nOut := rfl

@[simp] theorem State.nIn_handOver (s : State) (v : Byte) : (s.handOver v).nIn = s.nIn := rfl

theorem State.nOut_handOver (s : State) (v : Byte) : (s.handOver v).nOut = s.nOut + 1 := by
  simp [State.nOut]

/-- An enabled PUSH or operation row accepts. -/
theorem exec_of_accepting_enabled {i : Instr} {s : State} (ho : s.out = none)
    (hi : ∃ b, i = .push b ∨ ∃ c, i = operationOf c b ∧ s.ctrl = some c) :
    ∃ c b, exec i s = .next (s.accept c b) := by
  obtain ⟨b, rfl | ⟨c, rfl, hc⟩⟩ := hi
  · exact ⟨_, b, execPush_of_empty ho b⟩
  · exact ⟨c, b, (exec_operationOf c b s).trans (congrArg _ (operate_of_selected hc ho b))⟩

/-- `n_in` advances exactly at an enabled PUSH or operation row. -/
theorem exec_nIn_advances_iff {i : Instr} {s t : State} (h : exec i s = .next t) (hr : i ≠ .reset) :
    t.nIn = s.nIn + 1 ↔
      s.outValid = false ∧ ∃ b, i = .push b ∨ ∃ c, i = operationOf c b ∧ s.ctrl = some c := by
  rw [State.outValid_eq_false_iff]
  constructor
  · intro hn
    rcases exec_cases h with rfl | ⟨c, b, ho, -, rfl, hi⟩ | ⟨-, v, -, rfl⟩ | ⟨v, -, rfl⟩ | ⟨rfl, -⟩
    · simp at hn
    · exact ⟨ho, b, hi.imp_right fun ⟨hc, hi⟩ => ⟨c, hi, hc⟩⟩
    · simp at hn
    · simp [State.nIn] at hn
    · exact absurd rfl hr
  · rintro ⟨ho, hi⟩
    obtain ⟨c, b, he⟩ := exec_of_accepting_enabled ho hi
    rw [Host.Outcome.next.inj (h.symm.trans he), State.nIn_accept]

/-- `n_out` advances exactly at an enabled POP. -/
theorem exec_nOut_advances_iff {i : Instr} {s t : State} (h : exec i s = .next t) (hr : i ≠ .reset) :
    t.nOut = s.nOut + 1 ↔ s.outValid = true ∧ i = .pop := by
  constructor
  · intro hn
    rcases exec_cases h with rfl | ⟨c, b, -, -, rfl, -⟩ | ⟨hi, v, ho, -⟩ | ⟨v, -, rfl⟩ | ⟨rfl, -⟩
    · simp at hn
    · simp at hn
    · exact ⟨(State.outValid_eq_true_iff s).mpr (by simp [ho]), hi⟩
    · simp [State.nOut] at hn
    · exact absurd rfl hr
  · rintro ⟨ho, rfl⟩
    obtain ⟨v, hv⟩ := Option.isSome_iff_exists.mp ho
    rw [Host.Outcome.next.inj (h.symm.trans (execPop_of_held hv)), State.nOut_handOver]

/-- Unless it is RESET, an instruction lengthens each history by at most one entry. -/
theorem exec_histories {i : Instr} {s t : State} (h : exec i s = .next t) (hr : i ≠ .reset) :
    (∃ l : List (Ctrl × Sample), t.inHist = s.inHist ++ l ∧ l.length ≤ 1)
      ∧ ∃ l : List Byte, t.outHist = s.outHist ++ l ∧ l.length ≤ 1 := by
  rcases exec_cases h with rfl | ⟨c, b, -, -, rfl, -⟩ | ⟨-, v, -, rfl⟩ | ⟨v, -, rfl⟩ | ⟨rfl, -⟩
  · exact ⟨⟨[], by simp⟩, ⟨[], by simp⟩⟩
  · exact ⟨⟨[(c, b)], by simp [accept_eq]⟩, ⟨[], by simp [accept_eq]⟩⟩
  · exact ⟨⟨[], by simp⟩, ⟨[v], by simp⟩⟩
  · exact ⟨⟨[], by simp⟩, ⟨[], by simp⟩⟩
  · exact absurd rfl hr

/-! ### FAULT (R17) -/

/-- Another value of FAULT changes an acceptance in FAULT alone. -/
theorem accept_with_fault (s : State) (f : Bool) (c : Ctrl) (b : Sample) :
    State.accept { s with fault := f } c b = { s.accept c b with fault := faultAfter f b } := rfl

theorem operate_with_fault (s : State) (f : Bool) (c : Ctrl) (b : Sample) :
    ∃ f', State.operate { s with fault := f } c b = { s.operate c b with fault := f' } := by
  by_cases h : s.ctrl = some c ∧ s.out = none
  · refine ⟨faultAfter f b, ?_⟩
    rw [operate_of_selected h.1 h.2, operate_of_selected (s := { s with fault := f }) h.1 h.2, accept_with_fault]
  · have hn : s.ctrl ≠ some c ∨ s.out ≠ none := not_and_or.mp h
    refine ⟨f, ?_⟩
    rw [operate_of_not_enabled hn, operate_of_not_enabled (s := { s with fault := f }) hn]

theorem execPush_with_fault (s : State) (f : Bool) (b : Sample) :
    ∃ t f', execPush b s = .next t ∧ execPush b { s with fault := f } = .next { t with fault := f' } := by
  by_cases h : s.out = none
  · exact ⟨_, faultAfter f b, execPush_of_empty h b, execPush_of_empty (s := { s with fault := f }) h b⟩
  · exact ⟨_, f, execPush_of_held h b, execPush_of_held (s := { s with fault := f }) h b⟩

theorem execPop_with_fault (s : State) (f : Bool) :
    ∃ t f', execPop s = .next t ∧ execPop { s with fault := f } = .next { t with fault := f' } := by
  rcases Option.eq_none_or_eq_some s.out with h | ⟨v, h⟩
  · exact ⟨_, f, execPop_of_empty h, execPop_of_empty (s := { s with fault := f }) h⟩
  · exact ⟨_, f, execPop_of_held h, execPop_of_held (s := { s with fault := f }) h⟩

/-- Every instruction answers the same state under any value of FAULT, but for FAULT. -/
theorem exec_with_fault (i : Instr) (s : State) (f : Bool) :
    ∃ t f', exec i s = .next t ∧ exec i { s with fault := f } = .next { t with fault := f' } := by
  have op : ∀ c b, ∃ t f', exec (operationOf c b) s = .next t
      ∧ exec (operationOf c b) { s with fault := f } = .next { t with fault := f' } := by
    intro c b
    obtain ⟨f', hf⟩ := operate_with_fault s f c b
    exact ⟨_, f', exec_operationOf c b s, (exec_operationOf c b _).trans (congrArg _ hf)⟩
  cases i with
  | lin8 b => exact op 0b00#2 b
  | ulaw b => exact op 0b01#2 b
  | lin8i b => exact op 0b10#2 b
  | ulawi b => exact op 0b11#2 b
  | reset => exact ⟨s.clear, false, rfl, rfl⟩
  | cfgwr v => exact ⟨s.writeCtrl v, f, rfl, rfl⟩
  | push b => exact execPush_with_fault s f b
  | pop => exact execPop_with_fault s f

/-! ### The statements -/

/-- Settles O46: each of the five accepts its sample or does nothing, and an acceptance writes none of these fields. -/
theorem acceptingInstructionsFrame : Obligations.AcceptingInstructionsFrame := by
  intro b i s t hi h
  have accepting : i = .push b ∨ ∃ c, i = operationOf c b := by
    rcases hi with rfl | rfl | rfl | rfl | rfl
    · exact .inl rfl
    · exact .inr ⟨0b00#2, rfl⟩
    · exact .inr ⟨0b01#2, rfl⟩
    · exact .inr ⟨0b10#2, rfl⟩
    · exact .inr ⟨0b11#2, rfl⟩
  rcases exec_accepting_cases accepting h with rfl | ⟨c, rfl⟩
  · simp
  · exact ⟨rfl, rfl, rfl, rfl, rfl, rfl, fun hb => by simp [accept_eq, faultAfter, hb]⟩

/-- Settles O47: CFGWR and RESET by their equations, and of the other changes none writes CTRL. -/
theorem ctrlChangesOnlyByCfgwrAndReset : Obligations.CtrlChangesOnlyByCfgwrAndReset := by
  intro i s t h
  refine ⟨?_, ?_, fun hw hr => ?_⟩
  · rintro v rfl
    rw [exec_cfgwr_eq h, State.writeCtrl_ctrl]
  · rintro rfl
    rw [exec_reset_eq h, State.clear_ctrl]
  · rcases exec_cases h with rfl | ⟨c, b, -, -, rfl, -⟩ | ⟨-, v, -, rfl⟩ | ⟨v, hi, -⟩ | ⟨hi, -⟩
    · rfl
    · rfl
    · rfl
    · exact absurd hi (hw v)
    · exact absurd hi hr

/-- Settles O48: an acceptance ORs in whether its sample is non-finite; the other changes leave FAULT and `IN_HIST`. -/
theorem faultIsSticky : Obligations.FaultIsSticky := by
  intro i s t h
  refine ⟨?_, fun hr => ?_⟩
  · rintro rfl
    rw [exec_reset_eq h, State.clear_fault]
  · rcases exec_cases h with rfl | ⟨c, b, -, -, rfl, -⟩ | ⟨-, v, -, rfl⟩ | ⟨v, -, rfl⟩ | ⟨hi, -⟩
    · simp
    · have grown : ∀ c' b', s.inHist ++ [(c, b)] = s.inHist ++ [(c', b')] ↔ c = c' ∧ b = b' := by simp
      simp only [accept_eq, faultAfter, Bool.or_eq_true, Bool.not_eq_true', grown]
      exact or_congr_right ⟨fun hb => ⟨c, b, hb, rfl, rfl⟩, fun ⟨_, _, hb, _, e⟩ => e ▸ hb⟩
    · simp
    · simp
    · exact absurd hi hr

/-- Settles O49: each instruction's own equation, whose conditions do not read FAULT. -/
theorem faultGatesNothing : Obligations.FaultGatesNothing := by
  intro i s t f h
  obtain ⟨t', f', h', hf⟩ := exec_with_fault i s f
  obtain rfl : t = t' := Host.Outcome.next.inj (h.symm.trans h')
  exact ⟨f', hf⟩

/-- Settles O50: the histories grow by at most one entry, and each count advances at its own enabled action. -/
theorem positionsAdvanceByOne : Obligations.PositionsAdvanceByOne := by
  intro i s t h hr
  obtain ⟨⟨li, hin, hli⟩, lo, hout, hlo⟩ := exec_histories h hr
  refine ⟨⟨li, hin.symm⟩, ⟨lo, hout.symm⟩, ?_, ?_, exec_nIn_advances_iff h hr, exec_nOut_advances_iff h hr⟩
  · rw [State.nIn, hin, List.length_append]
    exact Nat.add_le_add_left hli _
  · rw [State.nOut, hout, List.length_append]
    exact Nat.add_le_add_left hlo _

/-- Settles O51: no change writes the parameters or the script. -/
theorem parametersAreNeverWritten : Obligations.ParametersAreNeverWritten := by
  intro i s t h
  rcases exec_cases h with rfl | ⟨c, b, -, -, rfl, -⟩ | ⟨-, v, -, rfl⟩ | ⟨v, -, rfl⟩ | ⟨-, rfl⟩ <;>
    exact ⟨rfl, rfl⟩

end Sys2Proof.Machine
end

section
/-! The state invariant (10_state.md R20): it holds after reset, every change that an instruction can make keeps it, so
every step does; and what it says of a state with `FAULT = 0` and of a complete run (70_reset_and_hazards.md R120, R121). -/

namespace Sys2Proof.Machine

/-! ### The invariant holds where nothing has happened, and the script is no part of it -/

/-- With empty histories, an empty register, no fault and no run, every clause is about nothing. -/
theorem inv_of_empty {s : State} (hin : s.inHist = []) (hout : s.outHist = []) (ho : s.out = none)
    (hf : s.fault = false) (hr : s.run = none) (hc : s.ctrl = none) : s.Inv := by
  refine ⟨?_, ?_, ?_, ?_, ?_, ?_⟩
  · simp [State.produced, hin, hout, ho]
  · simp [hf, hin]
  · simp [hf]
  · simp [hout]
  · simp [hr, hc]
  · simp [hr]

theorem Inv_with_script (s : State) (rest : List HostWord) : State.Inv { s with script := rest } ↔ s.Inv := Iff.rfl

/-! ### What the invariant says of the counts and of the run (R20) -/

theorem produced_length (s : State) : s.produced.length = s.nOut + s.outValid.toNat := by
  cases ho : s.out <;> simp [State.produced, State.nOut, State.outValid, ho]

theorem nIn_eq_of_inv {s : State} (h : s.Inv) : s.nIn = s.nOut + s.outValid.toNat := by
  obtain ⟨hbytes, -⟩ := h
  rw [← produced_length, ← hbytes.length_eq, State.nIn]

theorem run_isSome_of_inv {s : State} (h : s.Inv) : s.run.isSome = s.ctrl.isSome := by
  obtain ⟨-, -, -, -, hrun, -⟩ := h
  exact hrun

theorem agrees_of_inv {s : State} {m : RunMark} (h : s.Inv) (hm : s.run = some m) : m.agrees s := by
  obtain ⟨-, -, -, -, -, hmark⟩ := h
  exact hmark m hm

/-! ### Each change keeps the invariant -/

theorem produced_accept {s : State} (ho : s.out = none) (c : Ctrl) (b : Sample) :
    (s.accept c b).produced
      = s.produced ++ [(encodeSample s.params c b (Config.freePushByte s.draws)).1] := by
  simp [State.produced, accept_eq, ho]

/-- A fault that an acceptance sets is recorded, whatever CTRL is (R95, R104). -/
theorem pushCause_ne_none_of_nonfinite {b : Sample} (hb : isFinite64 b = false) (c : Option Ctrl) :
    pushCause c b ≠ none := by
  cases c with
  | none => simp [pushCause_unwritten]
  | some c => simp [pushCause_nonfinite hb]

/-- A mark goes on agreeing when a sample is accepted under the CTRL value that holds. -/
theorem agrees_accept {m : RunMark} {s : State} {c : Ctrl} (h : m.agrees s) (hc : s.ctrl = some c) (b : Sample) :
    m.agrees (s.accept c b) := by
  obtain ⟨hpush, hpop, hcount, hctrl⟩ := h
  refine ⟨?_, hpop, hcount, fun p hp => ?_⟩
  · rw [State.nIn_accept]
    omega
  · change p ∈ (s.inHist ++ [(c, b)]).drop m.pushes at hp
    rw [List.drop_append_of_le_length hpush, List.mem_append, List.mem_singleton] at hp
    rcases hp with hp | rfl
    · exact hctrl p hp
    · exact hc

theorem inv_accept {s : State} {c : Ctrl} (h : s.Inv) (ho : s.out = none) (hc : s.ctrl = some c ∨ s.ctrl = none)
    (b : Sample) : (s.accept c b).Inv := by
  obtain ⟨hbytes, hfault, hraised, hstream, hrun, hmark⟩ := h
  refine ⟨?_, ?_, fun hf => ?_, hstream, hrun, fun m hm => ?_⟩
  · rw [produced_accept ho]
    refine List.rel_append hbytes (.cons (fun hb => ?_) .nil)
    rw [encodeSample_finite _ _ _ hb]
  · simp [accept_eq, faultAfter, hfault]
  · have raised : (s.accept c b).raised = s.raised ++ (pushCause s.ctrl b).toList := rfl
    rw [raised]
    cases hs : s.fault with
    | true => simp [hraised hs]
    | false =>
      have hb : isFinite64 b = false := by simpa [accept_eq, faultAfter, hs] using hf
      simp [pushCause_ne_none_of_nonfinite hb]
  · change s.run = some m at hm
    rcases hc with hc | hc
    · exact agrees_accept (hmark m hm) hc b
    · simp [hm, hc] at hrun

theorem produced_handOver {s : State} {v : Byte} (ho : s.out = some v) : (s.handOver v).produced = s.produced := by
  simp [State.produced, ho]

theorem inv_handOver {s : State} {v : Byte} (h : s.Inv) (ho : s.out = some v) : (s.handOver v).Inv := by
  obtain ⟨hbytes, hfault, hraised, hstream, hrun, hmark⟩ := h
  refine ⟨?_, hfault, hraised, ?_, hrun, fun m hm => ?_⟩
  · rwa [produced_handOver ho]
  · obtain ⟨earlier, he⟩ := hstream
    exact ⟨earlier, by simp [← he]⟩
  · obtain ⟨hpush, hpop, hcount, hctrl⟩ := hmark m hm
    exact ⟨hpush, by rw [State.nOut_handOver]; omega, hcount, hctrl⟩

/-- The mark of a run that begins here agrees: the counts differ by the byte held, and the run has no sample yet. -/
theorem inv_writeCtrl {s : State} (h : s.Inv) (v : Ctrl) : (s.writeCtrl v).Inv := by
  have hcount := nIn_eq_of_inv h
  obtain ⟨hbytes, hfault, hraised, hstream, -, -⟩ := h
  refine ⟨hbytes, hfault, hraised, hstream, rfl, fun m hm => ?_⟩
  obtain rfl : s.markHere = m := Option.some.inj hm
  refine ⟨le_rfl, le_rfl, ?_, fun p hp => ?_⟩
  · simpa using hcount
  · simp [State.nIn] at hp

theorem inv_clear (s : State) : s.clear.Inv := inv_of_empty rfl rfl rfl rfl rfl rfl

theorem exec_keeps_inv (i : Instr) (s t : State) (he : exec i s = .next t) (h : s.Inv) : t.Inv := by
  rcases exec_cases he with rfl | ⟨c, b, ho, hc, rfl, -⟩ | ⟨-, v, ho, rfl⟩ | ⟨v, -, rfl⟩ | ⟨-, rfl⟩
  · exact h
  · exact inv_accept h ho hc b
  · exact inv_handOver h ho
  · exact inv_writeCtrl h v
  · exact inv_clear s

/-- Settles O52: after reset nothing has happened. -/
theorem invariantAtReset : Obligations.InvariantAtReset := inv_of_empty rfl rfl rfl rfl rfl rfl

/-- Settles O53: taking the word from the script is no part of the invariant, and each of its actions keeps it. -/
theorem stepKeepsInvariant : Obligations.StepKeepsInvariant := by
  intro s t h hst
  rcases step_cases s with ⟨-, hs⟩ | ⟨w, rest, -, hs⟩
  · obtain rfl : s = t := Host.Outcome.next.inj (hs.symm.trans hst)
    exact h
  · exact runAll_induct exec_keeps_inv _ _ t (hs.symm.trans hst) ((Inv_with_script s rest).mpr h)

/-! ### An invariant state with `FAULT = 0` -/

/-- With `FAULT = 0` every accepted sample is finite, so the bytes produced are `Op` of the samples, in order. -/
theorem produced_eq_map {s : State} (h : s.Inv) (hf : s.fault = false) :
    s.produced = s.inHist.map (fun p => opByte s.params p.1 p.2) := by
  obtain ⟨hbytes, hfault, -⟩ := h
  have finite : ∀ p ∈ s.inHist, isFinite64 p.2 = true := by simpa [hf] using hfault
  have each : List.Forall₂ (fun p v => opByte s.params p.1 p.2 = v) s.inHist s.produced :=
    ((List.forall₂_and_left _ _).mpr ⟨finite, hbytes⟩).imp fun _ _ ⟨hb, hv⟩ => (hv hb).symm
  rw [← List.forall₂_map_left_iff (f := fun p : Ctrl × Sample => opByte s.params p.1 p.2), List.forall₂_eq_eq_eq] at each
  exact each.symm

/-- The pairs of the run under way all carry the CTRL value that holds (R121). -/
theorem drop_eq_map_of_agrees {m : RunMark} {s : State} {c : Ctrl} (h : m.agrees s) (hc : s.ctrl = some c) :
    s.inHist.drop m.pushes = ((s.inHist.drop m.pushes).map Prod.snd).map (fun b => (c, b)) := by
  obtain ⟨-, -, -, hctrl⟩ := h
  rw [List.map_map]
  refine (List.map_id _).symm.trans (List.map_congr_left fun p hp => ?_)
  have : c = p.1 := Option.some.inj (hc.symm.trans (hctrl p hp))
  simp [this]

/-- The byte handed over at place `k` is `Op` of the sample accepted at place `k` (R20). -/
theorem outHist_getElem?_of_inv {s : State} (h : s.Inv) (hf : s.fault = false) {k : ℕ} (hk : k < s.nOut) :
    ∃ p, s.inHist[k]? = some p ∧ s.outHist[k]? = some (opByte s.params p.1 p.2) := by
  have hin : k < s.inHist.length := by
    have := nIn_eq_of_inv h
    rw [State.nIn] at this
    omega
  refine ⟨s.inHist[k], List.getElem?_eq_getElem hin, ?_⟩
  have hat := congrArg (·[k]?) (produced_eq_map h hf)
  rw [State.produced] at hat
  simpa [List.getElem?_append_left hk, List.getElem?_eq_getElem hin] using hat

/-- The held byte is `Op` of the last sample accepted (R20). -/
theorem out_eq_opByte_of_inv {s : State} (h : s.Inv) (hf : s.fault = false) {v : Byte} (ho : s.out = some v) :
    ∃ p, s.inHist.getLast? = some p ∧ v = opByte s.params p.1 p.2 := by
  have hlast := congrArg List.getLast? (produced_eq_map h hf)
  rw [List.getLast?_map, State.produced, ho, Option.toList_some, List.getLast?_concat] at hlast
  obtain ⟨p, hp, hv⟩ := Option.map_eq_some_iff.mp hlast.symm
  exact ⟨p, hp, hv.symm⟩

/-- With the register empty, the bytes handed over in the run under way are `Op` of the run's samples, in order. -/
theorem outHist_drop_of_run {s : State} {m : RunMark} {c : Ctrl} (h : s.Inv) (hf : s.fault = false) (ho : s.out = none)
    (hm : s.run = some m) (he : m.registerEmpty = true) (hc : s.ctrl = some c) :
    s.outHist.drop m.pops = ((s.inHist.drop m.pushes).map Prod.snd).map (opByte s.params c) := by
  have hprod := produced_eq_map h hf
  have hagrees := agrees_of_inv h hm
  have hctrl := drop_eq_map_of_agrees hagrees hc
  obtain ⟨-, -, hcount, -⟩ := hagrees
  have hpops : m.pushes = m.pops := by simpa [he] using hcount
  have hbytes : s.outHist = s.inHist.map (fun p => opByte s.params p.1 p.2) := by
    simpa [State.produced, ho] using hprod
  rw [hbytes, ← hpops, ← List.map_drop]
  generalize (s.inHist.drop m.pushes).map Prod.snd = samples at hctrl ⊢
  rw [hctrl, List.map_map]
  rfl

/-- Settles O54: the counts, both histories and the held byte from the list of bytes produced, and a complete run from
the part of it that its mark cuts off. -/
theorem oneBytePerSampleInOrder : Obligations.OneBytePerSampleInOrder := by
  intro s h hf
  refine ⟨nIn_eq_of_inv h, fun k => outHist_getElem?_of_inv h hf, fun v => out_eq_opByte_of_inv h hf, ?_⟩
  rintro n ⟨m, hm, he, hin, -, ho, -⟩
  have hout : s.out = none := (State.outValid_eq_false_iff s).mp ho
  obtain ⟨c, hc⟩ : ∃ c, s.ctrl = some c := Option.isSome_iff_exists.mp (by rw [← run_isSome_of_inv h, hm]; rfl)
  refine ⟨m, c, (s.inHist.drop m.pushes).map Prod.snd, hm, hc, ?_, drop_eq_map_of_agrees (agrees_of_inv h hm) hc,
    outHist_drop_of_run h hf hout hm he hc⟩
  rw [List.length_map, List.length_drop, ← State.nIn, hin, Nat.add_sub_cancel_left]

/-! ### A dutiful host (R115) -/

/-- What a dutiful host keeps: CTRL written and no fault raised (60_exceptions.md R115). -/
def State.dutiful (s : State) : Prop := s.ctrl ≠ none ∧ s.clean = true

/-- No fault raised is `FAULT = 0` and an empty record. -/
theorem clean_iff (s : State) : s.clean = true ↔ s.fault = false ∧ s.raised = [] := by
  simp [State.clean]

theorem clean_clear (s : State) : s.clear.clean = true := rfl

/-- An instruction inside the domain that accepts a sample accepts a finite one (30_encoding.md R52). -/
theorem finite_of_wellFormed {i : Instr} {b : Sample} (hw : i.wellFormed = true)
    (hi : i = .push b ∨ ∃ c, i = operationOf c b) : isFinite64 b = true := by
  rcases hi with rfl | ⟨c, rfl⟩
  · exact hw
  · rcases ctrl_cases c with rfl | rfl | rfl | rfl <;> exact hw

/-- Inside the domain, every instruction but RESET keeps CTRL written and raises no fault. -/
theorem exec_keeps_dutiful {i : Instr} {s t : State} (he : exec i s = .next t) (hw : i.wellFormed = true)
    (hr : i ≠ .reset) (h : s.dutiful) : t.dutiful := by
  rcases exec_cases he with rfl | ⟨c, b, -, hc, rfl, hi⟩ | ⟨-, v, -, rfl⟩ | ⟨v, -, rfl⟩ | ⟨rfl, -⟩
  · exact h
  · have hb : isFinite64 b = true := finite_of_wellFormed hw (hi.imp_right fun ⟨_, hi⟩ => ⟨c, hi⟩)
    have hc : s.ctrl = some c := hc.resolve_right h.1
    rw [accept_of_finite hb hc]
    exact h
  · exact h
  · exact ⟨Option.some_ne_none v, h.2⟩
  · exact absurd rfl hr

theorem runAll_keeps_dutiful : ∀ {is : List Instr} {s t : State}, runAll is s = .next t →
    (∀ i ∈ is, i.wellFormed = true ∧ i ≠ .reset) → s.dutiful → t.dutiful
  | [], _, _, h, _, hs => Host.Outcome.next.inj h ▸ hs
  | i :: rest, s, t, h, hw, hs => by
    obtain ⟨u, hu⟩ := exec_next i s
    obtain ⟨⟨hwi, hri⟩, hrest⟩ := List.forall_mem_cons.mp hw
    exact runAll_keeps_dutiful (runAll_cons rest hu ▸ h) hrest (exec_keeps_dutiful hu hwi hri hs)

/-- RESET comes alone or not at all (70_reset_and_hazards.md R118). -/
theorem actions_reset_cases (w : HostWord) : actions w = [.reset] ∨ ∀ i ∈ actions w, i ≠ .reset := by
  cases w with
  | ctrlWord c b =>
    refine .inr fun i hi => ?_
    rw [List.mem_singleton.mp hi, operationOf]
    split_ifs <;> simp
  | strobeWord e =>
    rcases Bool.eq_false_or_eq_true e.rst with h | h
    · exact .inl (actions_of_rst h)
    · refine .inr fun i hi => ?_
      simp only [actions, h, Bool.false_eq_true, if_false, List.mem_append, List.mem_ite_nil_right,
        List.mem_singleton] at hi
      rcases hi with (⟨-, rfl⟩ | ⟨-, rfl⟩) | ⟨-, rfl⟩ <;> simp

/-- Settles O60: RESET alone leaves a clean block, and any other actions keep the host dutiful. -/
theorem dutifulHostSeesNoFault : Obligations.DutifulHostSeesNoFault := by
  intro w rest s hs hw hctrl hclean
  obtain ⟨t, ht⟩ := runAll_next (actions w) { s with script := rest }
  have clean : t.clean = true := by
    rcases actions_reset_cases w with hr | hr
    · rw [hr, runAll_single] at ht
      exact exec_reset_eq ht ▸ clean_clear _
    · exact (runAll_keeps_dutiful ht (fun i hi => ⟨hw i hi, hr i hi⟩) ⟨hctrl, hclean⟩).2
  exact ⟨t, (step_word hs).trans ht, clean, ((clean_iff t).mp clean).1⟩

end Sys2Proof.Machine
end

section
/-! The clock edge (20_memory.md R31 to R33): the actions of a word as three stages, POP, PUSH and CFGWR, each a change of
the state or none, and the edge of R31 as the three together. -/

namespace Sys2Proof.Machine

/-! ### The three stages -/

/-- The POP stage: the held byte is handed over at an edge with `OUT_READY` (R31). -/
def State.afterPop (e : Edge) (s : State) : State :=
  if popsAt e s then
    { s with outStream := s.outStream ++ s.out.toList, outHist := s.outHist ++ s.out.toList, out := none }
  else s

/-- The PUSH stage: the offered sample is accepted where the register is empty by now. -/
def State.afterPush (e : Edge) (s : State) : State :=
  if e.inValid && !s.outValid then s.accept s.selectedCtrl e.inSample else s

/-- The CFGWR stage. -/
def State.afterCfgwr (e : Edge) (s : State) : State := if e.ctrlWe then s.writeCtrl e.ctrlWdata else s

theorem runAll_append {is : List Instr} {s t : State} (js : List Instr) (h : runAll is s = .next t) :
    runAll (is ++ js) s = runAll js t := by
  induction is generalizing s with
  | nil => rw [← Host.Outcome.next.inj h, List.nil_append]
  | cons i rest ih =>
    obtain ⟨u, hu⟩ := exec_next i s
    rw [List.cons_append, runAll_cons _ hu]
    exact ih (runAll_cons rest hu ▸ h)

theorem runAll_pop_stage (e : Edge) (s : State) :
    runAll (if e.outReady then [.pop] else []) s = .next (s.afterPop e) := by
  cases hr : e.outReady with
  | false => simp [State.afterPop, popsAt, hr]
  | true =>
    rcases execPop_cases s with ⟨v, ho, he⟩ | ⟨ho, he⟩
    · simp [State.afterPop, popsAt, State.outValid, hr, ho, exec, he, State.handOver]
    · simp [State.afterPop, popsAt, State.outValid, hr, ho, exec, he]

theorem runAll_push_stage (e : Edge) (s : State) :
    runAll (if e.inValid then [.push e.inSample] else []) s = .next (s.afterPush e) := by
  cases hv : e.inValid with
  | false => simp [State.afterPush, hv]
  | true => cases ho : s.outValid <;> simp [State.afterPush, hv, exec, execPush, ho]

theorem runAll_cfgwr_stage (e : Edge) (s : State) :
    runAll (if e.ctrlWe then [.cfgwr e.ctrlWdata] else []) s = .next (s.afterCfgwr e) := by
  cases hw : e.ctrlWe <;> simp [State.afterCfgwr, hw, exec, execCfgwr]

/-- At an edge with `RST = 0` the three stages follow one another (R33). -/
theorem runAll_actions_of_not_rst {e : Edge} (h : e.rst = false) (s : State) :
    runAll (actions (.strobeWord e)) s = .next (((s.afterPop e).afterPush e).afterCfgwr e) := by
  rw [actions, if_neg (by simp [h]), List.append_assoc, runAll_append _ (runAll_pop_stage e s),
    runAll_append _ (runAll_push_stage e _), runAll_cfgwr_stage]

/-! ### The edge of R31 -/

/-- `IN_READY` is the register as the POP stage leaves it (R32). -/
theorem outValid_afterPop (e : Edge) (s : State) : (s.afterPop e).outValid = !s.inReady e.outReady := by
  cases hv : s.outValid <;> cases hr : e.outReady <;>
    simp [State.afterPop, popsAt, State.inReady, hv, hr]
  rfl

/-- `nonfinite` of `Encode` is what FAULT is set by (44_operations.md R94, R95). -/
theorem encodeSample_snd (P : Config.Params) (c : Ctrl) (b : Sample) (v : Byte) :
    (encodeSample P c b v).2 = !isFinite64 b := by
  cases h : isFinite64 b <;> simp [encodeSample, h]

theorem clockEdge_of_rst {e : Edge} (h : e.rst = true) (s : State) : clockEdge e s = s.clear := if_pos h

/-- The PUSH stage happens exactly where R31 has `push`, under the CTRL value from before the edge. -/
theorem afterPush_afterPop (e : Edge) (s : State) :
    (s.afterPop e).afterPush e
      = if pushesAt e s then (s.afterPop e).accept s.selectedCtrl e.inSample else s.afterPop e := by
  have hctrl : (s.afterPop e).selectedCtrl = s.selectedCtrl := by
    cases hp : popsAt e s <;> simp [State.afterPop, hp, State.selectedCtrl]
  rw [State.afterPush, outValid_afterPop, Bool.not_not, hctrl]
  rfl

theorem length_out_of_popsAt {e : Edge} {s : State} (h : popsAt e s = true) : s.out.toList.length = 1 := by
  obtain ⟨v, hv⟩ := Option.isSome_iff_exists.mp (Bool.and_elim_left h)
  rw [hv]
  rfl

/-- The edge is one of eight, by which of POP, PUSH and CFGWR happen at it; in each, R31's registers are the stages'. -/
theorem clockEdge_eq_stages {e : Edge} (h : e.rst = false) (s : State) :
    clockEdge e s = ((s.afterPop e).afterPush e).afterCfgwr e := by
  rw [afterPush_afterPop]
  cases hpop : popsAt e s <;> cases hpush : pushesAt e s <;> cases hw : e.ctrlWe <;>
    simp [clockEdge, h, hpop, hpush, hw, State.afterPop, accept_eq, encodeSample_snd, faultAfter, Bool.or_comm,
      State.afterCfgwr, State.writeCtrl, State.markHere, State.nIn, State.nOut, State.outValid, @length_out_of_popsAt e s]

/-- Settles O57: RESET alone under `RST`, and the three stages otherwise. -/
theorem clockEdgeIsTheInterleaving : Obligations.ClockEdgeIsTheInterleaving := by
  intro e s
  rcases Bool.eq_false_or_eq_true e.rst with h | h
  · rw [actions_of_rst h, runAll_single, clockEdge_of_rst h]
    rfl
  · rw [runAll_actions_of_not_rst h, clockEdge_eq_stages h]

/-- Settles O56: the accepted sample in the edge of R31. -/
theorem sampleAcceptedExactlyWhenReady : Obligations.SampleAcceptedExactlyWhenReady := by
  intro e rest s t hs hr hv ht
  rw [step_word hs, clockEdgeIsTheInterleaving] at ht
  obtain rfl := Host.Outcome.next.inj ht
  have pushes : pushesAt e { s with script := rest } = s.inReady e.outReady := by
    rw [pushesAt, hv, Bool.true_and]
    rfl
  have inHist : (clockEdge e { s with script := rest }).inHist
      = if s.inReady e.outReady then s.inHist ++ [(s.selectedCtrl, e.inSample)] else s.inHist := by
    simp only [clockEdge, hr, pushes]
    rfl
  rw [inHist]
  exact ⟨fun h => ⟨_, if_pos h⟩, fun h => if_neg (by simp [h])⟩

end Sys2Proof.Machine
end

section
/-! RUN (30_encoding.md R55, 44_operations.md R102): CFGWR, then a PUSH and a POP for each sample. -/

namespace Sys2Proof.Machine

/-- The word that spells an instruction is one step of it. -/
theorem step_of_encode {s : State} {i : Instr} {rest : List HostWord} (h : s.script = encode i :: rest) :
    step s = exec i { s with script := rest } := step_of_decode h (decode_encode i)

/-- What the words of ENC over `samples` leave, from an empty register under CTRL `v`: each sample's pair and byte. -/
def State.encoded (s : State) (v : Ctrl) (samples : List Sample) (rest : List HostWord) : State :=
  { s with
    script := rest
    inHist := s.inHist ++ samples.map (fun b => (v, b))
    outHist := s.outHist ++ samples.map (opByte s.params v)
    outStream := s.outStream ++ samples.map (opByte s.params v) }

/-- ENC of a finite sample: its byte goes through the register in two steps. -/
theorem run_encWords {s : State} {v : Ctrl} {b : Sample} {rest : List HostWord} (k : ℕ) (hb : isFinite64 b = true)
    (hc : s.ctrl = some v) (ho : s.out = none) (hs : s.script = encWords b ++ rest) :
    Host.Core.run Sys2Proof.core (k + 2) s = Host.Core.run Sys2Proof.core k (s.encoded v [b] rest) := by
  have push : step s = .next { s with
      script := encode .pop :: rest, inHist := s.inHist ++ [(v, b)], out := some (opByte s.params v b) } := by
    rw [step_of_encode (i := .push b) hs]
    exact exec_push_of_finite (s := { s with script := encode .pop :: rest }) hb hc ho
  rw [run_next (k + 1) push, run_next k ((step_of_encode (i := .pop) rfl).trans (execPop_of_held rfl)),
    State.handOver, State.encoded]
  simp [ho]

/-- The ENC words of a list of finite samples, by induction on the samples. -/
theorem run_flatMap_encWords {v : Ctrl} {rest : List HostWord} : ∀ {samples : List Sample} {s : State},
    (∀ b ∈ samples, isFinite64 b = true) → s.ctrl = some v → s.out = none →
    s.script = samples.flatMap encWords ++ rest →
    Host.Core.run Sys2Proof.core (2 * samples.length) s = .next (s.encoded v samples rest)
  | [], s, _, _, _, hs => by
    have : s.script = rest := hs
    simp [Host.Core.run, State.encoded, ← this]
  | b :: samples, s, hfin, hc, ho, hs => by
    obtain ⟨hb, hfin⟩ := List.forall_mem_cons.mp hfin
    rw [List.flatMap_cons, List.append_assoc] at hs
    rw [List.length_cons, Nat.mul_succ, run_encWords _ hb hc ho hs,
      run_flatMap_encWords (s := s.encoded v [b] _) hfin hc ho rfl]
    simp [State.encoded]

/-- Settles O58: CFGWR begins the run, the ENC words encode the samples, and the counts since the mark are their number. -/
theorem runEncodesTheSequence : Obligations.RunEncodesTheSequence := by
  intro v samples rest s hfin ho hs
  have hv : s.outValid = false := (State.outValid_eq_false_iff s).mpr ho
  refine ⟨?_, fun hf => ⟨_, rfl, rfl, ?_, ?_, hv, hf⟩⟩
  · have begun : step s = .next (State.writeCtrl { s with script := samples.flatMap encWords ++ rest } v) :=
      step_of_encode (i := .cfgwr v) hs
    have encoded := run_flatMap_encWords (rest := rest)
      (s := State.writeCtrl { s with script := samples.flatMap encWords ++ rest } v) hfin rfl ho rfl
    rw [Nat.add_comm, run_next _ begun]
    refine encoded.trans (congrArg _ ?_)
    simp [State.encoded, State.writeCtrl, State.markHere, State.nIn, State.nOut, State.outValid, ho]
  · simp [State.nIn]
  · simp [State.nOut]

end Sys2Proof.Machine
end

section
/-! The unit COMPAND read backwards (95_test_vectors.md section 3): the magnitudes of each pre-mask word, and so the
operands of each code. -/

namespace Sys2Proof.Machine

/-! ### The magnitudes of a pre-mask word -/

/-- The first magnitude whose pre-mask word is `v`: `v % 16 + 16` is the mantissa with its leading one, which stands
`v / 16 + 3` bits up (42_ulaw_compand.md R77, R80). -/
def firstMagnitude (v : ℕ) : ℕ := (v % 16 + 16) * 2 ^ (v / 16 + 3)

theorem firstMagnitude_add_pow (v : ℕ) : firstMagnitude v + 2 ^ (v / 16 + 3) = (v % 16 + 17) * 2 ^ (v / 16 + 3) := by
  rw [firstMagnitude]
  ring

/-- The magnitudes between two first ones share the segment and the mantissa. -/
theorem segment_and_mantissa_iff {m k n : ℕ} (hn : n < 16) (hm : 128 ≤ m) :
    segment m = k ∧ mantissa m = n ↔ (n + 16) * 2 ^ (k + 3) ≤ m ∧ m < (n + 17) * 2 ^ (k + 3) := by
  have hsize := size_eq_segment_add_eight hm
  have hman := mantissa_add_sixteen hm
  have hpow : 0 < 2 ^ (k + 3) := by positivity
  rw [← Nat.le_div_iff_mul_le hpow, ← Nat.div_lt_iff_lt_mul hpow]
  constructor
  · rintro ⟨rfl, rfl⟩
    omega
  · rintro ⟨hlo, hhi⟩
    have hseg : segment m = k := by
      have hle : m.size ≤ k + 8 := by
        rw [Nat.size_le, show k + 8 = 5 + (k + 3) by omega, pow_add]
        exact (Nat.div_lt_iff_lt_mul hpow).mp (by omega)
      have hlt : k + 7 < m.size := by
        rw [Nat.lt_size, show k + 7 = 4 + (k + 3) by omega, pow_add]
        exact (Nat.le_div_iff_mul_le hpow).mp (by omega)
      omega
    rw [hseg] at hman
    omega

/-- The magnitudes of pre-mask word `v`; the last word has every magnitude from its first one on (R79). -/
theorem premask_eq_iff {m v : ℕ} (hm : 128 ≤ m) (hv : v ≤ 127) :
    premask m = v ↔ firstMagnitude v ≤ m ∧ (v = 127 ∨ m < firstMagnitude v + 2 ^ (v / 16 + 3)) := by
  rcases hv.eq_or_lt with rfl | hlt
  · rw [premask_eq_max_iff hm]
    simp [firstMagnitude]
  · rw [firstMagnitude_add_pow, firstMagnitude, or_iff_right hlt.ne, ← segment_and_mantissa_iff (by omega) hm]
    rcases lt_or_ge m 32768 with h | h
    · have := mantissa_lt m
      rw [premask_of_unsaturated h]
      omega
    · have := (eight_le_segment_iff m).mpr h
      rw [premask_of_saturated h]
      omega

/-! ### The code and the pre-mask word -/

theorem compand_eq_iff_of_nonneg {p : Pcm16} {v : ℕ} (hp : 0 ≤ p.toInt) (hv : v ≤ 127) :
    compand p = BitVec.ofNat 8 (0xFF - v) ↔ premask (magnitude p) = v := by
  have := compand_toNat_cases p
  have := premask_le (magnitude p)
  rw [← BitVec.toNat_inj, BitVec.toNat_ofNat]
  omega

theorem compand_eq_iff_of_neg {p : Pcm16} {v : ℕ} (hp : p.toInt < 0) (hv : v ≤ 127) :
    compand p = BitVec.ofNat 8 (0x7F - v) ↔ premask (magnitude p) = v := by
  have := compand_toNat_cases p
  have := premask_le (magnitude p)
  rw [← BitVec.toNat_inj, BitVec.toNat_ofNat]
  omega

/-- Below zero two operands have the same code exactly when their pre-mask words are the same. -/
theorem compand_eq_compand_iff_of_neg {p q : Pcm16} (hp : p.toInt < 0) (hq : q.toInt < 0) :
    compand p = compand q ↔ premask (magnitude p) = premask (magnitude q) := by
  have := compand_toNat_cases p
  have := compand_toNat_cases q
  have := premask_le (magnitude p)
  have := premask_le (magnitude q)
  rw [← BitVec.toNat_inj]
  omega

/-! ### Operands of a given magnitude -/

theorem toInt_ofInt_pcm16 {z : ℤ} (hlo : -32768 ≤ z) (hhi : z ≤ 32767) : (BitVec.ofInt 16 z).toInt = z :=
  BitVec.toInt_ofInt_eq_self (by decide) (by omega) (by omega)

/-- Every magnitude from 132 to 32899 is that of an operand from 0 up and of one below zero (R76). -/
theorem exists_operand_of_magnitude {m : ℕ} (hlo : 132 ≤ m) (hhi : m ≤ 32899) :
    (∃ p : Pcm16, 0 ≤ p.toInt ∧ magnitude p = m) ∧ ∃ p : Pcm16, p.toInt < 0 ∧ magnitude p = m := by
  have hpos : (BitVec.ofInt 16 ((m : ℤ) - 132)).toInt = (m : ℤ) - 132 := toInt_ofInt_pcm16 (by omega) (by omega)
  have hneg : (BitVec.ofInt 16 (131 - (m : ℤ))).toInt = 131 - (m : ℤ) := toInt_ofInt_pcm16 (by omega) (by omega)
  have hmpos := magnitude_cases (BitVec.ofInt 16 ((m : ℤ) - 132))
  have hmneg := magnitude_cases (BitVec.ofInt 16 (131 - (m : ℤ)))
  exact ⟨⟨BitVec.ofInt 16 ((m : ℤ) - 132), by omega, by omega⟩, ⟨BitVec.ofInt 16 (131 - (m : ℤ)), by omega, by omega⟩⟩

/-- Every pre-mask word up to 127 is that of some operand's magnitude: the last one before the next word begins. -/
theorem exists_magnitude_of_premask {v : ℕ} (hv : v ≤ 127) : ∃ m, 132 ≤ m ∧ m ≤ 32899 ∧ premask m = v := by
  have hlo : 17 * 2 ^ 3 ≤ (v % 16 + 17) * 2 ^ (v / 16 + 3) :=
    Nat.mul_le_mul (by omega) (Nat.pow_le_pow_right (by decide) (by omega))
  have hhi : (v % 16 + 17) * 2 ^ (v / 16 + 3) ≤ 32 * 2 ^ 10 :=
    Nat.mul_le_mul (by omega) (Nat.pow_le_pow_right (by decide) (by omega))
  have hpow : 0 < 2 ^ (v / 16 + 3) := by positivity
  rw [← firstMagnitude_add_pow] at hlo hhi
  refine ⟨firstMagnitude v + 2 ^ (v / 16 + 3) - 1, by omega, by omega, ?_⟩
  rw [premask_eq_iff (by omega) hv]
  omega

/-! ### The statements -/

/-- Settles O24: the code is the pre-mask word reversed below its mask, and the word's fields are segment and mantissa. -/
theorem codeFields : Obligations.CodeFields := by
  intro p
  have hc := compand_toNat_cases p
  have hu := premask_le (magnitude p)
  have hseg := premask_div_sixteen (magnitude p)
  have hman := premask_mod_sixteen (magnitude p)
  refine ⟨?_, fun h => ?_, fun h => ?_⟩
  · rw [getLsbD_seven_iff]
    omega
  · rw [if_neg (by omega)] at hseg hman
    omega
  · rw [if_pos h] at hseg hman
    omega

/-- Settles O28: the code gives the pre-mask word, and the word's magnitudes are read on the operand in each branch. -/
theorem compandClosedForm : Obligations.CompandClosedForm := by
  intro p v hv
  have hb := pcm16_bounds p
  have hmb := magnitude_bounds p
  have hm := magnitude_cases p
  have hpow : (2 : ℤ) ^ (v / 16 + 3) = (2 ^ (v / 16 + 3) : ℕ) := (Nat.cast_pow 2 _).symm
  have hfirst : ((v % 16 : ℕ) + 16 : ℤ) * (2 ^ (v / 16 + 3) : ℕ) = firstMagnitude v := by
    rw [firstMagnitude, Nat.cast_mul, Nat.cast_add]
    rfl
  simp only [hpow, hfirst]
  have hword := premask_eq_iff (m := magnitude p) (by omega) hv
  refine ⟨fun h => ?_, fun h => ?_⟩
  · rw [compand_eq_iff_of_nonneg h hv, hword]
    split_ifs <;> omega
  · rw [compand_eq_iff_of_neg h hv, hword]
    split_ifs <;> omega

/-- Settles O29: a code is a pre-mask word below one of the two masks, and every word has an operand in each region. -/
theorem compandReachesEveryCode : Obligations.CompandReachesEveryCode := by
  intro c
  have hc := c.isLt
  rcases lt_or_ge c.toNat 128 with h | h
  · obtain ⟨m, hlo, hhi, hm⟩ := exists_magnitude_of_premask (v := 127 - c.toNat) (by omega)
    obtain ⟨-, p, hp, rfl⟩ := exists_operand_of_magnitude hlo hhi
    refine ⟨p, ((compand_eq_iff_of_neg hp (by omega)).mpr hm).trans ?_⟩
    rw [Nat.sub_sub_self (by omega), BitVec.ofNat_toNat, BitVec.setWidth_eq]
  · obtain ⟨m, hlo, hhi, hm⟩ := exists_magnitude_of_premask (v := 255 - c.toNat) (by omega)
    obtain ⟨⟨p, hp, rfl⟩, -⟩ := exists_operand_of_magnitude hlo hhi
    refine ⟨p, ((compand_eq_iff_of_nonneg hp (by omega)).mpr hm).trans ?_⟩
    rw [Nat.sub_sub_self (by omega), BitVec.ofNat_toNat, BitVec.setWidth_eq]

/-- Settles O30: without the `-1` an operand has the magnitude of the next one down; -32768 has none, and is saturated. -/
theorem minusOneMattersAtTheLastOperand : Obligations.MinusOneMattersAtTheLastOperand := by
  intro p hp
  have hb := pcm16_bounds p
  have hm := magnitude_cases p
  have hnext : (132 - p.toInt).toNat = magnitude p + 1 := by omega
  rw [hnext]
  rcases eq_or_ne p.toInt (-32768) with hlast | hlast
  · simp [hlast, premask_of_saturated (m := magnitude p) (by omega),
      premask_of_saturated (m := magnitude p + 1) (by omega)]
  · have hq : (BitVec.ofInt 16 (p.toInt - 1)).toInt = p.toInt - 1 := toInt_ofInt_pcm16 (by omega) (by omega)
    have hmq : magnitude (BitVec.ofInt 16 (p.toInt - 1)) = magnitude p + 1 := by
      have := magnitude_cases (BitVec.ofInt 16 (p.toInt - 1))
      omega
    rw [and_iff_right hlast, Ne, Ne, compand_eq_compand_iff_of_neg (by omega) hp, hmq]

end Sys2Proof.Machine
end

section
/-! The primitives `hsb`, `trunc` and `round_int` (00_scope.md R11) on exact rationals: a product is a sign and a
magnitude, `trunc` is the floor of the magnitude, and `round_int` the natural number nearest to it. -/

namespace Sys2Proof.Machine

/-- Settles O9: the bounds of the binary logarithm. -/
theorem hsbIsFloorLog2 : Obligations.HsbIsFloorLog2 := by
  refine ⟨rfl, fun x hx => ⟨x.log2, ?_, Nat.log2_self_le hx.ne', Nat.lt_log2_self⟩⟩
  rw [hsb, if_neg hx.ne']

/-! ### A magnitude under a sign -/

/-- The rational `x` under a sign, as `val64` and `Product.value` write it (00_scope.md R12). -/
def signMul (neg : Bool) (x : ℚ) : ℚ := (if neg then -1 else 1) * x

@[simp] theorem signMul_true (x : ℚ) : signMul true x = -x := by simp [signMul]
@[simp] theorem signMul_false (x : ℚ) : signMul false x = x := by simp [signMul]

theorem abs_signMul (neg : Bool) {x : ℚ} (hx : 0 ≤ x) : |signMul neg x| = x := by
  cases neg <;> simp [abs_of_nonneg hx]

theorem abs_signMul_sub (neg : Bool) (x y : ℚ) : |signMul neg x - signMul neg y| = |x - y| := by
  cases neg with
  | false => simp
  | true => rw [signMul_true, signMul_true, neg_sub_neg, abs_sub_comm]

/-- A function that is monotone from 0 up and keeps 0 is monotone under a sign too. -/
theorem signMul_map_le {f : ℚ → ℚ} (hf : MonotoneOn f (Set.Ici 0)) (h0 : f 0 = 0) {n n' : Bool} {x x' : ℚ}
    (hx : 0 ≤ x) (hx' : 0 ≤ x') (h : signMul n x ≤ signMul n' x') : signMul n (f x) ≤ signMul n' (f x') := by
  have nonneg : ∀ y, 0 ≤ y → 0 ≤ f y := fun y hy => h0.symm.le.trans (hf Set.self_mem_Ici hy hy)
  have hfx := nonneg x hx
  have hfx' := nonneg x' hx'
  cases n <;> cases n' <;> simp only [signMul_true, signMul_false] at h ⊢
  case false.false => exact hf hx hx' h
  case false.true =>
    have hx0 : x = 0 := by linarith
    have hx0' : x' = 0 := by linarith
    simp [hx0, hx0', h0]
  case true.false => linarith
  case true.true => exact neg_le_neg (hf hx' hx (neg_le_neg_iff.mp h))

/-- `|P|` of a triple (00_scope.md R12). -/
def Product.absValue (p : Product) : ℚ := (p.mag : ℚ) * (2 : ℚ) ^ p.exp

theorem Product.absValue_nonneg (p : Product) : 0 ≤ p.absValue := by
  rw [Product.absValue]
  positivity

theorem Product.value_eq (p : Product) : p.value = signMul p.neg p.absValue := mul_assoc _ _ _

theorem Product.abs_value (p : Product) : |p.value| = p.absValue := by
  rw [p.value_eq, abs_signMul _ p.absValue_nonneg]

theorem Product.cast_signed (p : Product) (m : ℕ) : ((p.signed m : ℤ) : ℚ) = signMul p.neg m := by
  cases hn : p.neg <;> simp [Product.signed, hn]

theorem Product.abs_cast_signed (p : Product) (m : ℕ) : |((p.signed m : ℤ) : ℚ)| = m := by
  rw [p.cast_signed, abs_signMul _ m.cast_nonneg]

theorem Product.signed_mod_two {p : Product} {m : ℕ} (h : m % 2 = 0) : p.signed m % 2 = 0 := by
  rw [Product.signed]
  split_ifs <;> omega

/-- At an exponent from 0 up the magnitude is the natural number that the shift makes. -/
theorem Product.absValue_of_exp_nonneg {p : Product} (h : 0 ≤ p.exp) :
    p.absValue = ((p.mag <<< p.exp.toNat : ℕ) : ℚ) := by
  rw [Product.absValue, Nat.shiftLeft_eq, ← Int.toNat_of_nonneg h]
  push_cast
  rw [zpow_natCast, Int.toNat_natCast]

/-- At an exponent below 0 the magnitude is a quotient by a power of two. -/
theorem Product.absValue_of_exp_neg {p : Product} (h : p.exp < 0) :
    p.absValue = (p.mag : ℚ) / 2 ^ (-p.exp).toNat := by
  rw [Product.absValue, div_eq_mul_inv, ← zpow_natCast, ← zpow_neg, Int.toNat_of_nonneg (by omega), neg_neg]

/-! ### trunc -/

theorem floor_natCast_div_two_pow (m k : ℕ) : ⌊(m : ℚ) / 2 ^ k⌋₊ = m / 2 ^ k := by
  have := Nat.floor_div_eq_div (K := ℚ) m (2 ^ k)
  rwa [Nat.cast_pow, Nat.cast_ofNat] at this

theorem Product.trunc_eq (p : Product) : p.trunc = p.signed ⌊p.absValue⌋₊ := by
  rw [Product.trunc]
  split_ifs with h
  · rw [p.absValue_of_exp_nonneg h, Nat.floor_natCast]
  · rw [p.absValue_of_exp_neg (not_le.mp h), floor_natCast_div_two_pow, Nat.shiftRight_eq_div_pow]

theorem Product.trunc_le_trunc {p p' : Product} (h : p.value ≤ p'.value) : p.trunc ≤ p'.trunc := by
  have hmono : MonotoneOn (fun x : ℚ => ((⌊x⌋₊ : ℕ) : ℚ)) (Set.Ici 0) :=
    fun _ _ _ _ hxy => Nat.cast_le.mpr (Nat.floor_mono hxy)
  rw [p.value_eq, p'.value_eq] at h
  have := signMul_map_le hmono (by simp) p.absValue_nonneg p'.absValue_nonneg h
  rw [← p.cast_signed, ← p'.cast_signed, Int.cast_le] at this
  rwa [p.trunc_eq, p'.trunc_eq]

/-- Settles O11: the bounds of the floor of the magnitude; the sign by comparing with the product 0. -/
theorem truncGoesTowardZero : Obligations.TruncGoesTowardZero := by
  intro p
  have zero : (Product.mk false 0 0).value = 0 ∧ (Product.mk false 0 0).trunc = 0 := ⟨by simp [Product.value], rfl⟩
  refine ⟨?_, ?_, fun h => ?_, fun h => ?_⟩
  · rw [p.trunc_eq, p.abs_cast_signed, p.abs_value]
    exact Nat.floor_le p.absValue_nonneg
  · rw [p.trunc_eq, p.abs_cast_signed, p.abs_value]
    exact Nat.lt_floor_add_one _
  · rw [← zero.2]
    exact Product.trunc_le_trunc (zero.1.trans_le h)
  · rw [← zero.2]
    exact Product.trunc_le_trunc (h.trans_eq zero.1.symm)

/-! ### round_int -/

/-- The natural number nearest to `x`; halfway between two, the one that the tie rule names (00_scope.md R11). -/
def nearest (ties : Config.Ties) (x : ℚ) : ℕ :=
  if 1 / 2 < x - ⌊x⌋₊ ∨ (x - ⌊x⌋₊ = 1 / 2 ∧ (ties = .away ∨ ⌊x⌋₊ % 2 = 1)) then ⌊x⌋₊ + 1 else ⌊x⌋₊

/-- `nearest` by its thresholds: it passes `n` above `n + 1/2`, and at that tie where the rule goes up. -/
theorem lt_nearest_iff {ties : Config.Ties} {x : ℚ} (hx : 0 ≤ x) {n : ℕ} :
    n < nearest ties x ↔ (n : ℚ) + 1 / 2 < x ∨ (x = n + 1 / 2 ∧ (ties = .away ∨ n % 2 = 1)) := by
  have hle := Nat.floor_le hx
  have hlt := Nat.lt_floor_add_one x
  rcases lt_trichotomy n ⌊x⌋₊ with hn | hn | hn
  · have hn' : (n : ℚ) + 1 ≤ ⌊x⌋₊ := by exact_mod_cast hn
    refine iff_of_true ?_ (.inl (by linarith))
    rw [nearest]
    split_ifs <;> omega
  · subst hn
    rw [nearest, ← lt_sub_iff_add_lt', ← sub_eq_iff_eq_add']
    split_ifs with h
    · exact iff_of_true (Nat.lt_succ_self _) h
    · exact iff_of_false (lt_irrefl _) h
  · have hn' : (⌊x⌋₊ : ℚ) + 1 ≤ n := by exact_mod_cast hn
    refine iff_of_false ?_ ?_
    · rw [nearest]
      split_ifs <;> omega
    · rintro (h | ⟨h, -⟩) <;> linarith

theorem nearest_le_nearest {ties : Config.Ties} {x y : ℚ} (hx : 0 ≤ x) (hxy : x ≤ y) :
    nearest ties x ≤ nearest ties y := by
  refine le_of_forall_lt fun n hn => ?_
  rw [lt_nearest_iff hx] at hn
  rw [lt_nearest_iff (hx.trans hxy)]
  rcases hn with hn | ⟨hn, ht⟩
  · exact .inl (hn.trans_le hxy)
  · exact (hn.symm.trans_le hxy).lt_or_eq.imp_right fun h => ⟨h.symm, ht⟩

@[simp] theorem nearest_natCast (ties : Config.Ties) (n : ℕ) : nearest ties n = n := by
  norm_num [nearest]

@[simp] theorem nearest_zero (ties : Config.Ties) : nearest ties 0 = 0 := by
  simpa using nearest_natCast ties 0

theorem abs_sub_nearest_le {ties : Config.Ties} {x : ℚ} (hx : 0 ≤ x) : |x - nearest ties x| ≤ 1 / 2 := by
  have hle := Nat.floor_le hx
  have hlt := Nat.lt_floor_add_one x
  rw [nearest, abs_le]
  split_ifs with h
  · push_cast
    rcases h with h | ⟨h, -⟩ <;> constructor <;> linarith
  · have := not_lt.mp (not_or.mp h).1
    constructor <;> linarith

/-- Halfway between `n` and `n + 1` the rule decides: up under `away`, and under `even` where `n` is odd. -/
theorem nearest_of_half (ties : Config.Ties) (n : ℕ) :
    nearest ties ((n : ℚ) + 1 / 2) = if ties = .away ∨ n % 2 = 1 then n + 1 else n := by
  have hfloor : ⌊(n : ℚ) + 1 / 2⌋₊ = n := by
    rw [Nat.floor_eq_iff (by positivity)]
    constructor <;> linarith
  rw [nearest, hfloor, add_sub_cancel_left]
  simp only [lt_irrefl, false_or, true_and]

/-- Off the halfway points the tie rule is not asked. -/
theorem nearest_of_not_half {x : ℚ} (h : x ≠ ⌊x⌋₊ + 1 / 2) (ties ties' : Config.Ties) :
    nearest ties x = nearest ties' x := by
  have hne : ¬ x - ⌊x⌋₊ = 1 / 2 := fun he => h (by linarith)
  simp only [nearest, hne, false_and, or_false]

/-- Halfway, `even` gives the even neighbour and `away` the larger one. -/
theorem nearest_tie {ties : Config.Ties} {x : ℚ} (hx : 0 ≤ x) (h : |x - nearest ties x| = 1 / 2) :
    (ties = .even → nearest ties x % 2 = 0) ∧ (ties = .away → x < nearest ties x) := by
  have half : ∃ n : ℕ, x = n + 1 / 2 := by
    rcases abs_eq (by norm_num) |>.mp h with h | h
    · exact ⟨nearest ties x, by linarith⟩
    · have hpos : 0 < nearest ties x := Nat.cast_pos.mp (by linarith : (0 : ℚ) < nearest ties x)
      exact ⟨nearest ties x - 1, by rw [Nat.cast_pred hpos]; linarith⟩
  obtain ⟨n, rfl⟩ := half
  rw [nearest_of_half]
  refine ⟨?_, ?_⟩ <;> rintro rfl
  · simp only [reduceCtorEq, false_or]
    split_ifs <;> omega
  · rw [if_pos (.inl rfl)]
    push_cast
    linarith

/-- `nearest` of a quotient by a power of two, as R57 and R12 list it: by the remainder and its half. -/
theorem nearest_natCast_div_two_pow (ties : Config.Ties) (m k : ℕ) :
    nearest ties ((m : ℚ) / 2 ^ (k + 1)) =
      if m % 2 ^ (k + 1) > 2 ^ k ∨ (m % 2 ^ (k + 1) = 2 ^ k ∧ (ties = .away ∨ m / 2 ^ (k + 1) % 2 = 1))
      then m / 2 ^ (k + 1) + 1 else m / 2 ^ (k + 1) := by
  have hpow : (0 : ℚ) < 2 ^ (k + 1) := by positivity
  have hhalf : (1 / 2 : ℚ) * 2 ^ (k + 1) = (2 ^ k : ℕ) := by
    push_cast
    ring
  have hfrac : (m : ℚ) / 2 ^ (k + 1) - (m / 2 ^ (k + 1) : ℕ) = (m % 2 ^ (k + 1) : ℕ) / 2 ^ (k + 1) := by
    have hdiv : (2 ^ (k + 1) : ℚ) * (m / 2 ^ (k + 1) : ℕ) + (m % 2 ^ (k + 1) : ℕ) = m := by
      exact_mod_cast Nat.div_add_mod m (2 ^ (k + 1))
    rw [eq_div_iff hpow.ne', sub_mul, div_mul_cancel₀ _ hpow.ne']
    linarith
  rw [nearest, floor_natCast_div_two_pow, hfrac]
  simp only [lt_div_iff₀ hpow, div_eq_iff hpow.ne', hhalf, Nat.cast_lt, Nat.cast_inj, gt_iff_lt]

theorem Product.roundInt_eq (p : Product) (ties : Config.Ties) :
    p.roundInt ties = p.signed (nearest ties p.absValue) := by
  rcases lt_or_ge p.exp 0 with h | h
  · obtain ⟨k, hk⟩ : ∃ k, (-p.exp).toNat = k + 1 := ⟨(-p.exp).toNat - 1, by omega⟩
    rw [roundInt_listing p ties h, p.absValue_of_exp_neg h, hk, nearest_natCast_div_two_pow]
    simp only [Nat.shiftRight_eq_div_pow, Nat.add_sub_cancel]
  · rw [Product.roundInt, if_pos h, p.absValue_of_exp_nonneg h, nearest_natCast]

theorem Product.roundInt_le_roundInt {p p' : Product} {ties : Config.Ties} (h : p.value ≤ p'.value) :
    p.roundInt ties ≤ p'.roundInt ties := by
  have hmono : MonotoneOn (fun x : ℚ => ((nearest ties x : ℕ) : ℚ)) (Set.Ici 0) :=
    fun _ hx _ _ hxy => Nat.cast_le.mpr (nearest_le_nearest hx hxy)
  rw [p.value_eq, p'.value_eq] at h
  have := signMul_map_le hmono (by simp) p.absValue_nonneg p'.absValue_nonneg h
  rw [← p.cast_signed, ← p'.cast_signed, Int.cast_le] at this
  rwa [p.roundInt_eq, p'.roundInt_eq]

/-- Settles O12: the sign is the product's own, so both claims are those of the magnitude's nearest number. -/
theorem roundIntGoesToNearest : Obligations.RoundIntGoesToNearest := by
  intro p ties
  have hdist : |p.value - (p.roundInt ties : ℚ)| = |p.absValue - nearest ties p.absValue| := by
    rw [p.roundInt_eq, p.value_eq, p.cast_signed, abs_signMul_sub]
  rw [hdist, p.roundInt_eq, p.abs_cast_signed, p.abs_value]
  refine ⟨abs_sub_nearest_le p.absValue_nonneg, fun h => ?_⟩
  exact (nearest_tie p.absValue_nonneg h).imp_left fun heven he => Product.signed_mod_two (heven he)

end Sys2Proof.Machine
end

section
/-! The constant product `fmulc` (00_scope.md R12): the exact product rounded to 53 bits, to nearest with ties to even,
and so a monotone function of the sample's value. -/

namespace Sys2Proof.Machine

/-! ### The exact product -/

theorem zpow_two_pos (k : ℤ) : (0 : ℚ) < 2 ^ k := zpow_pos (by norm_num) k

theorem zpow_natCast_add (n : ℕ) (k : ℤ) : (2 : ℚ) ^ ((n : ℤ) + k) = ((2 ^ n : ℕ) : ℚ) * 2 ^ k := by
  rw [zpow_add₀ (by norm_num), zpow_natCast, Nat.cast_pow, Nat.cast_ofNat]

/-- `|val64(b)|` of a pattern. -/
def absVal64 (b : Sample) : ℚ := (significandOf b : ℚ) * (2 : ℚ) ^ scaleOf b

theorem absVal64_nonneg (b : Sample) : 0 ≤ absVal64 b := by
  rw [absVal64]
  positivity

theorem val64_eq (b : Sample) : val64 b = signMul (signOf b) (absVal64 b) := mul_assoc _ _ _

theorem abs_val64 (b : Sample) : |val64 b| = absVal64 b := by
  rw [val64_eq, abs_signMul _ (absVal64_nonneg b)]

theorem signMul_mul (neg : Bool) (x y : ℚ) : signMul neg x * y = signMul neg (x * y) := mul_assoc _ _ _

/-! ### The shift of R12 -/

/-- `Q >> L` rounded as R12 says is the natural number nearest to `Q / 2^L`, ties to even. -/
theorem shiftRoundEven_eq (Q L : ℕ) : shiftRoundEven Q L = nearest .even ((Q : ℚ) / 2 ^ L) := by
  cases L with
  | zero => simp [shiftRoundEven]
  | succ k =>
    rw [nearest_natCast_div_two_pow, shiftRoundEven]
    simp [Nat.shiftRight_eq_div_pow]

theorem bitLength_eq_size (x : ℕ) : bitLength x = x.size := by
  rw [bitLength, hsb_eq_size_sub_one]
  omega

/-- The significand of R12 keeps at most 53 bits of `Q`. -/
theorem lt_two_pow_shift (Q : ℕ) : Q < 2 ^ (53 + (bitLength Q - 53)) := by
  rw [← Nat.size_le, bitLength_eq_size]
  omega

/-- Where bits are shifted out, 53 remain. -/
theorem two_pow_shift_le {Q : ℕ} (h : bitLength Q - 53 ≠ 0) : 2 ^ (52 + (bitLength Q - 53)) ≤ Q := by
  rw [← Nat.lt_size, bitLength_eq_size]
  rw [bitLength_eq_size] at h
  omega

section Fmulc

variable (b : Sample) (C : ℕ)

/-- The exact product's significand, `Q` of R12. -/
def exactSignificand : ℕ := significandOf b * C

/-- How many bits of it are rounded away, `L` of R12. -/
def droppedBits : ℕ := bitLength (exactSignificand b C) - 53

/-- The exact product in units of the rounded one's last place. -/
def exactUnits : ℚ := (exactSignificand b C : ℚ) / 2 ^ droppedBits b C

theorem exactUnits_nonneg : 0 ≤ exactUnits b C := by
  rw [exactUnits]
  positivity

theorem fmulc_neg : (fmulc b C).neg = signOf b := rfl

theorem fmulc_exp : (fmulc b C).exp = scaleOf b + droppedBits b C := rfl

theorem fmulc_mag : (fmulc b C).mag = nearest .even (exactUnits b C) := shiftRoundEven_eq _ _

theorem absVal64_mul : absVal64 b * C = exactUnits b C * 2 ^ (fmulc b C).exp := by
  rw [fmulc_exp, zpow_add₀ (by norm_num), zpow_natCast, absVal64, exactUnits, exactSignificand]
  push_cast
  field_simp

/-- The error is that of the nearest natural number, in units of the last place. -/
theorem abs_fmulc_sub :
    |(fmulc b C).value - val64 b * C|
      = |exactUnits b C - nearest .even (exactUnits b C)| * 2 ^ (fmulc b C).exp := by
  rw [Product.value_eq, val64_eq, signMul_mul, fmulc_neg, abs_signMul_sub, absVal64_mul, Product.absValue, fmulc_mag,
    ← sub_mul, abs_mul, abs_sub_comm, abs_of_pos (zpow_two_pos _)]

theorem fmulc_exact (h : droppedBits b C = 0) : (fmulc b C).value = val64 b * C := by
  rw [← sub_eq_zero, ← abs_eq_zero, abs_fmulc_sub, exactUnits, h]
  simp

theorem exactUnits_lt : exactUnits b C < ((2 ^ 53 : ℕ) : ℚ) := by
  rw [exactUnits, div_lt_iff₀ (by positivity)]
  exact_mod_cast (lt_two_pow_shift (exactSignificand b C)).trans_eq (pow_add 2 53 _)

theorem le_exactUnits (h : droppedBits b C ≠ 0) : ((2 ^ 52 : ℕ) : ℚ) ≤ exactUnits b C := by
  rw [exactUnits, le_div_iff₀ (by positivity)]
  exact_mod_cast (pow_add 2 52 _).symm.trans_le (two_pow_shift_le h)

theorem fmulc_mag_le : (fmulc b C).mag ≤ 2 ^ 53 := by
  rw [fmulc_mag, ← nearest_natCast .even (2 ^ 53)]
  exact nearest_le_nearest (exactUnits_nonneg b C) (exactUnits_lt b C).le

theorem le_fmulc_mag (h : droppedBits b C ≠ 0) : 2 ^ 52 ≤ (fmulc b C).mag := by
  rw [fmulc_mag, ← nearest_natCast .even (2 ^ 52)]
  exact nearest_le_nearest (Nat.cast_nonneg _) (le_exactUnits b C h)

theorem scaleOf_ge : -1074 ≤ scaleOf b := by
  rw [scaleOf]
  split_ifs <;> omega

/-- Below `2^-1022` the exact significand is too short to be rounded. -/
theorem droppedBits_of_small (h : |val64 b * C| < (2 : ℚ) ^ (-1022 : ℤ)) : droppedBits b C = 0 := by
  by_contra hne
  refine h.not_ge ?_
  have hexp : -1074 ≤ (fmulc b C).exp := by
    have := scaleOf_ge b
    rw [fmulc_exp]
    omega
  calc (2 : ℚ) ^ (-1022 : ℤ)
      = ((2 ^ 52 : ℕ) : ℚ) * 2 ^ (-1074 : ℤ) := by rw [← zpow_natCast_add, Nat.cast_ofNat]; norm_num
    _ ≤ exactUnits b C * 2 ^ (fmulc b C).exp :=
        mul_le_mul (le_exactUnits b C hne) (zpow_le_zpow_right₀ (by norm_num) hexp) (by positivity)
          (exactUnits_nonneg b C)
    _ = |val64 b * C| := by rw [abs_mul, abs_val64, Nat.abs_cast, absVal64_mul]

end Fmulc

/-- Settles O10: the claims on the error are those on the nearest natural number, scaled by the unit of the last place. -/
theorem fmulcRoundsToNearestEven : Obligations.FmulcRoundsToNearestEven := by
  intro b C _ _
  have hunit : (0 : ℚ) < 2 ^ (fmulc b C).exp := zpow_two_pos _
  refine ⟨fmulc_neg b C, ?_, fun h => ?_, fmulc_mag_le b C, ?_, fun h => fmulc_exact b C (droppedBits_of_small b C h)⟩
  · rw [abs_fmulc_sub, div_eq_inv_mul, ← one_div]
    exact mul_le_mul_of_nonneg_right (abs_sub_nearest_le (exactUnits_nonneg b C)) hunit.le
  · rw [abs_fmulc_sub, div_eq_inv_mul, ← one_div] at h
    rw [fmulc_mag]
    exact (nearest_tie (exactUnits_nonneg b C) (mul_right_cancel₀ hunit.ne' h)).1 rfl
  · rcases eq_or_ne (droppedBits b C) 0 with h | h
    · exact .inr (fmulc_exact b C h)
    · exact .inl (le_fmulc_mag b C h)

/-! ### Monotonicity: the rounding is a function of the exact product's value -/

/-- A positive rational rounded to 53 bits, to nearest with ties to even (00_scope.md R12). -/
def round53 (x : ℚ) : ℚ := nearest .even (x / 2 ^ (Int.log 2 x - 52)) * 2 ^ (Int.log 2 x - 52)

@[simp] theorem round53_zero : round53 0 = 0 := by simp [round53]

/-- The rounding at the unit `2^k` that leaves 53 bits. -/
theorem round53_of_units {x : ℚ} {k : ℤ} (hlo : 2 ^ (52 + k) ≤ x) (hhi : x < 2 ^ (53 + k)) :
    round53 x = nearest .even (x / 2 ^ k) * 2 ^ k := by
  have hx : 0 < x := (zpow_two_pos _).trans_le hlo
  have hge := (Int.zpow_le_iff_le_log (b := 2) (by norm_num) hx).mp (by exact_mod_cast hlo)
  have hlt := (Int.lt_zpow_iff_log_lt (b := 2) (by norm_num) hx).mp (by exact_mod_cast hhi)
  rw [round53, show Int.log 2 x - 52 = k by omega]

theorem exists_units {x : ℚ} (hx : 0 < x) : ∃ k : ℤ, 2 ^ (52 + k) ≤ x ∧ x < 2 ^ (53 + k) := by
  refine ⟨Int.log 2 x - 52, ?_, ?_⟩
  · have := Int.zpow_log_le_self (b := 2) (by norm_num) hx
    rw [add_sub_cancel]
    exact_mod_cast this
  · have := Int.lt_zpow_succ_log_self (b := 2) (by norm_num) x
    rw [show 53 + (Int.log 2 x - 52) = Int.log 2 x + 1 by ring]
    exact_mod_cast this

theorem round53_mem {x : ℚ} {k : ℤ} (hlo : 2 ^ (52 + k) ≤ x) (hhi : x < 2 ^ (53 + k)) :
    2 ^ (52 + k) ≤ round53 x ∧ round53 x ≤ 2 ^ (53 + k) := by
  have hk := zpow_two_pos k
  have hlo' : ((2 ^ 52 : ℕ) : ℚ) ≤ x / 2 ^ k := by
    rw [le_div_iff₀ hk, ← zpow_natCast_add]
    exact hlo
  have hhi' : x / 2 ^ k ≤ ((2 ^ 53 : ℕ) : ℚ) := by
    rw [div_le_iff₀ hk, ← zpow_natCast_add]
    exact hhi.le
  have hnlo := nearest_le_nearest (ties := .even) (Nat.cast_nonneg _) hlo'
  have hnhi := nearest_le_nearest (ties := .even) ((Nat.cast_nonneg _).trans hlo') hhi'
  rw [nearest_natCast] at hnlo hnhi
  rw [round53_of_units hlo hhi]
  constructor
  · exact (zpow_natCast_add 52 _).trans_le (mul_le_mul_of_nonneg_right (Nat.cast_le.mpr hnlo) hk.le)
  · exact (mul_le_mul_of_nonneg_right (Nat.cast_le.mpr hnhi) hk.le).trans_eq (zpow_natCast_add 53 _).symm

theorem round53_nonneg (x : ℚ) : 0 ≤ round53 x := by
  rw [round53]
  positivity

theorem round53_monotoneOn : MonotoneOn round53 (Set.Ici 0) := by
  intro x hx y _ hxy
  rcases (Set.mem_Ici.mp hx).eq_or_lt with rfl | hpos
  · rw [round53_zero]
    exact round53_nonneg y
  · obtain ⟨k, hklo, hkhi⟩ := exists_units hpos
    obtain ⟨l, hllo, hlhi⟩ := exists_units (hpos.trans_le hxy)
    have hkl : 52 + k < 53 + l :=
      (zpow_lt_zpow_iff_right₀ (by norm_num)).mp ((hklo.trans hxy).trans_lt hlhi)
    rcases (show k ≤ l by omega).eq_or_lt with rfl | hlt
    · rw [round53_of_units hklo hkhi, round53_of_units hllo hlhi]
      have hdiv : x / 2 ^ k ≤ y / 2 ^ k := div_le_div_of_nonneg_right hxy (zpow_two_pos k).le
      have := nearest_le_nearest (ties := .even) (div_nonneg hx (zpow_two_pos k).le) hdiv
      exact mul_le_mul_of_nonneg_right (Nat.cast_le.mpr this) (zpow_two_pos k).le
    · calc round53 x ≤ 2 ^ (53 + k) := (round53_mem hklo hkhi).2
        _ ≤ 2 ^ (52 + l) := zpow_le_zpow_right₀ (by norm_num) (by omega)
        _ ≤ round53 y := (round53_mem hllo hlhi).1

/-- What has at most 53 bits is kept as it is. -/
theorem round53_of_short {n : ℕ} (hn : n < 2 ^ 53) (e : ℤ) : round53 (n * 2 ^ e) = n * 2 ^ e := by
  rcases Nat.eq_zero_or_pos n with rfl | hpos
  · simp
  · have hx : (0 : ℚ) < n * 2 ^ e := mul_pos (Nat.cast_pos.mpr hpos) (zpow_two_pos e)
    obtain ⟨k, hlo, hhi⟩ := exists_units hx
    have hlt : (n : ℚ) * 2 ^ e < 2 ^ (53 + e) := by
      rw [zpow_add₀ (by norm_num)]
      exact mul_lt_mul_of_pos_right (by exact_mod_cast hn) (zpow_two_pos e)
    have hke : 52 + k < 53 + e := (zpow_lt_zpow_iff_right₀ (by norm_num)).mp (hlo.trans_lt hlt)
    obtain ⟨j, hj⟩ : ∃ j : ℕ, e = j + k := ⟨(e - k).toNat, by omega⟩
    have hdiv : (n : ℚ) * 2 ^ e / 2 ^ k = ((n * 2 ^ j : ℕ) : ℚ) := by
      rw [hj, zpow_add₀ (by norm_num), zpow_natCast, ← mul_assoc, mul_div_cancel_right₀ _ (zpow_two_pos k).ne']
      push_cast
      rfl
    rw [round53_of_units hlo hhi, hdiv, nearest_natCast, ← hdiv, div_mul_cancel₀ _ (zpow_two_pos k).ne']

/-- The magnitude of the constant product is the exact magnitude rounded to 53 bits. -/
theorem fmulc_absValue (b : Sample) (C : ℕ) : (fmulc b C).absValue = round53 (absVal64 b * C) := by
  have hunit := zpow_two_pos (fmulc b C).exp
  rw [absVal64_mul, Product.absValue, fmulc_mag]
  rcases eq_or_ne (droppedBits b C) 0 with h | h
  · have hunits : exactUnits b C = (exactSignificand b C : ℕ) := by simp [exactUnits, h]
    have hshort : exactSignificand b C < 2 ^ 53 := by
      have := exactUnits_lt b C
      rw [hunits] at this
      exact_mod_cast this
    rw [hunits, nearest_natCast, round53_of_short hshort]
  · rw [round53_of_units (k := (fmulc b C).exp), mul_div_cancel_right₀ _ hunit.ne']
    · exact (zpow_natCast_add 52 _).trans_le (mul_le_mul_of_nonneg_right (le_exactUnits b C h) hunit.le)
    · exact (mul_lt_mul_of_pos_right (exactUnits_lt b C) hunit).trans_eq (zpow_natCast_add 53 _).symm

/-- The constant product is monotone in the value of the sample. -/
theorem fmulc_value_le {b b' : Sample} (C : ℕ) (h : val64 b ≤ val64 b') : (fmulc b C).value ≤ (fmulc b' C).value := by
  have hmono : MonotoneOn (fun x : ℚ => round53 (x * C)) (Set.Ici 0) := fun x hx y hy hxy =>
    round53_monotoneOn (Set.mem_Ici.mpr (mul_nonneg hx C.cast_nonneg)) (Set.mem_Ici.mpr (mul_nonneg hy C.cast_nonneg))
      (mul_le_mul_of_nonneg_right hxy C.cast_nonneg)
  rw [val64_eq, val64_eq] at h
  rw [Product.value_eq, Product.value_eq, fmulc_absValue, fmulc_absValue]
  exact signMul_map_le hmono (by simp) (absVal64_nonneg b) (absVal64_nonneg b') h

end Sys2Proof.Machine
end

section
/-! LINQ8 and NORM16 (40_linear8.md, 41_norm16.md): saturation, the tie rules, and what monotonicity gives. -/

namespace Sys2Proof.Machine

theorem clamp_le_clamp {v w : ℤ} (lo hi : ℤ) (h : v ≤ w) (hb : lo ≤ hi) : clamp v lo hi ≤ clamp w lo hi := by
  have := clamp_cases v lo hi
  have := clamp_cases w lo hi
  omega

/-! ### LINQ8: saturation and the tie rules (R58 to R60) -/

theorem Product.signed_cases (p : Product) :
    (p.neg = true ∧ ∀ m : ℕ, p.signed m = -(m : ℤ)) ∨ (p.neg = false ∧ ∀ m : ℕ, p.signed m = m) := by
  cases h : p.neg <;> simp [Product.signed, h]

/-- Which byte LINQ8 gives, read on the clamped sum. -/
theorem linq8_eq_iff (ties : Config.Ties) (b : Sample) {n : ℕ} (hn : n < 256) :
    linq8 ties b = BitVec.ofNat 8 n ↔ clamp ((fmulc b 127).roundInt ties + 128) 0 255 = n := by
  rw [← linq8_toNat, ← BitVec.toNat_inj, BitVec.toNat_ofNat, Nat.mod_eq_of_lt hn, Nat.cast_inj]

/-- A product at or below `-x` is one below zero whose magnitude is at least `x`. -/
theorem Product.value_le_neg_iff (p : Product) {x : ℚ} (hx : 0 < x) :
    p.value ≤ -x ↔ p.neg = true ∧ x ≤ p.absValue := by
  have := p.absValue_nonneg
  rw [p.value_eq]
  cases p.neg with
  | false =>
    simp only [signMul_false, Bool.false_eq_true, false_and, iff_false, not_le]
    linarith
  | true => simp

/-- The rounded product reaches -128 at -127.5 under both tie rules, because 127 is odd (R60). -/
theorem roundInt_le_iff (p : Product) (ties : Config.Ties) : p.roundInt ties ≤ -128 ↔ p.value ≤ -255 / 2 := by
  have hthreshold : 127 < nearest ties p.absValue ↔ (255 / 2 : ℚ) ≤ p.absValue := by
    rw [lt_nearest_iff p.absValue_nonneg, le_iff_lt_or_eq]
    norm_num [eq_comm]
  rw [neg_div, p.value_le_neg_iff (by norm_num), ← hthreshold, p.roundInt_eq]
  rcases p.signed_cases with ⟨hn, hs⟩ | ⟨hn, hs⟩
  · rw [hn, hs, and_iff_right rfl]
    omega
  · rw [hn, hs]
    exact iff_of_false (by omega) fun h => Bool.false_ne_true h.1

/-- Settles O13: the clamped sum in its three ranges, and byte 0 read on the product. -/
theorem linq8Saturates : Obligations.Linq8Saturates := by
  intro ties b
  have hsum := linq8_toNat ties b
  have hc := clamp_cases ((fmulc b 127).roundInt ties + 128) 0 255
  refine ⟨fun h => (linq8_eq_iff ties b (by decide)).mpr (by omega),
    fun h => (linq8_eq_iff ties b (by decide)).mpr (by omega), fun h h' => by omega, ?_, ?_⟩
  · rw [← roundInt_le_iff _ ties, linq8_eq_iff ties b (by decide)]
    omega
  · rw [linq8_eq_iff ties b (by decide)]
    omega

/-- The two rules give the same number off the halfway points above even numbers, and there `n` and `n + 1`. -/
theorem nearest_even_away_cases (x : ℚ) :
    (∃ n : ℕ, n % 2 = 0 ∧ x = n + 1 / 2 ∧ nearest .even x = n ∧ nearest .away x = n + 1)
      ∨ ((∀ n : ℕ, n % 2 = 0 → x ≠ n + 1 / 2) ∧ nearest .even x = nearest .away x) := by
  by_cases h : ∃ n : ℕ, x = n + 1 / 2
  · obtain ⟨n, rfl⟩ := h
    rw [nearest_of_half, nearest_of_half]
    rcases Nat.mod_two_eq_zero_or_one n with hn | hn
    · exact .inl ⟨n, hn, rfl, by simp [hn], by simp⟩
    · refine .inr ⟨fun m hm he => ?_, by simp [hn]⟩
      have : n = m := by exact_mod_cast add_right_cancel he
      omega
  · have hne := not_exists.mp h
    exact .inr ⟨fun n _ => hne n, nearest_of_not_half (hne _) _ _⟩

theorem exists_even_half_le_iff {x : ℚ} {n k : ℕ} (hn : n % 2 = 0) (hx : x = n + 1 / 2) :
    (∃ m : ℕ, m % 2 = 0 ∧ m ≤ k ∧ x = m + 1 / 2) ↔ n ≤ k := by
  refine ⟨fun ⟨m, _, hm, hxm⟩ => ?_, fun h => ⟨n, hn, h, hx⟩⟩
  have : n = m := by exact_mod_cast add_right_cancel (hx.symm.trans hxm)
  omega

/-- Settles O14: at an even half the rounded products are neighbours, which the clamp keeps apart up to 126. -/
theorem tieRulesDifferOnEvenHalves : Obligations.TieRulesDifferOnEvenHalves := by
  intro b
  set p := fmulc b 127 with hp
  have heven := linq8_toNat .even b
  have haway := linq8_toNat .away b
  have hceven := clamp_cases (p.roundInt .even + 128) 0 255
  have hcaway := clamp_cases (p.roundInt .away + 128) 0 255
  rw [← hp] at heven haway
  rw [p.abs_value, Ne, ← BitVec.toNat_inj]
  rw [p.roundInt_eq] at heven haway hceven hcaway
  rcases nearest_even_away_cases p.absValue with ⟨n, hn, hx, he, ha⟩ | ⟨hne, hsame⟩
  · rw [he] at heven hceven
    rw [ha] at haway hcaway
    rw [exists_even_half_le_iff hn hx]
    rcases p.signed_cases with ⟨-, hs⟩ | ⟨-, hs⟩ <;> rw [hs] at heven hceven haway hcaway <;> omega
  · rw [hsame] at heven
    exact iff_of_false (not_not.mpr (by omega)) fun ⟨m, hm, _, hx⟩ => hne m hm hx

/-! ### NORM16: saturation (R63, R65) -/

/-- Settles O15: the truncated product lies within 1 of the product, on its side of zero. -/
theorem norm16Saturates : Obligations.Norm16Saturates := by
  intro b
  have hsum := norm16_toInt b
  have hc := clamp_cases (fmulc b 32767).trunc (-32768) 32767
  obtain ⟨hle, hlt, hpos, hneg⟩ := truncGoesTowardZero (fmulc b 32767)
  set t := (fmulc b 32767).trunc
  refine ⟨fun h => ?_, fun h => ?_, fun h => ?_⟩
  · have ht : 0 ≤ t := hpos (by linarith)
    rw [abs_of_nonneg (by linarith), abs_of_nonneg (by exact_mod_cast ht)] at hlt
    have : (32767 : ℚ) < t := by linarith
    have : 32767 < t := by exact_mod_cast this
    omega
  · have ht : t ≤ 0 := hneg (by linarith)
    rw [abs_of_nonpos (by linarith), abs_of_nonpos (by exact_mod_cast ht)] at hlt
    have : (t : ℚ) < -32767 := by linarith
    have : t < -32767 := by exact_mod_cast this
    omega
  · have hbound := abs_lt.mp (hle.trans_lt h)
    have : -32768 < t := by exact_mod_cast hbound.1
    have : t < 32768 := by exact_mod_cast hbound.2
    omega

/-! ### Monotonicity (R61, R69) and the logical range -/

theorem linq8_le_linq8 {b b' : Sample} (ties : Config.Ties) (h : val64 b ≤ val64 b') :
    (linq8 ties b).toNat ≤ (linq8 ties b').toNat := by
  have hround := Product.roundInt_le_roundInt (ties := ties) (fmulc_value_le 127 h)
  have := clamp_le_clamp (v := (fmulc b 127).roundInt ties + 128) (w := (fmulc b' 127).roundInt ties + 128) 0 255
    (by omega) (by decide)
  rw [← linq8_toNat, ← linq8_toNat] at this
  exact_mod_cast this

theorem norm16_le_norm16 {b b' : Sample} (h : val64 b ≤ val64 b') : (norm16 b).toInt ≤ (norm16 b').toInt := by
  rw [norm16_toInt, norm16_toInt]
  exact clamp_le_clamp _ _ (Product.trunc_le_trunc (fmulc_value_le 32767 h)) (by decide)

/-- Settles O16: product, rounding, truncation and clamp are each monotone. -/
theorem conversionsAreMonotone : Obligations.ConversionsAreMonotone :=
  fun ties _ _ _ _ h => ⟨linq8_le_linq8 ties h, norm16_le_norm16 h⟩

theorem val64_neg_one : val64 0xBFF0000000000000#64 = -1 := by
  have hs : signOf 0xBFF0000000000000#64 = true := by decide
  have hm : significandOf 0xBFF0000000000000#64 = 2 ^ 52 := by decide
  have he : scaleOf 0xBFF0000000000000#64 = -52 := by decide
  rw [val64, hs, hm, he]
  norm_num

/-- Settles O17: both conversions are monotone, and at -1.0 they give -32767 and 1. -/
theorem logicalRangeStaysInside : Obligations.LogicalRangeStaysInside := by
  intro ties b _ h
  have hle : val64 0xBFF0000000000000#64 ≤ val64 b := by
    rw [val64_neg_one]
    exact (abs_le.mp h).1
  have hnorm : (norm16 0xBFF0000000000000#64).toInt = -32767 := by decide
  have hlinq : (linq8 ties 0xBFF0000000000000#64).toNat = 1 := by rw [linq8_neg_one]; rfl
  exact ⟨hnorm.symm.trans_le (norm16_le_norm16 hle), hlinq.symm.trans_le (linq8_le_linq8 ties hle)⟩

end Sys2Proof.Machine
end

section
/-! NORM16 on the fields of a pattern (30_encoding.md R45, 41_norm16.md R67 to R69): a larger pattern has a larger
magnitude, bit 63 negates, and every pcm16 value has a sample. -/

namespace Sys2Proof.Machine

/-! ### The fields of a pattern (R45) -/

theorem exponentOf_eq (b : Sample) : exponentOf b = b.toNat / 2 ^ 52 % 2 ^ 11 := by
  rw [exponentOf, BitVec.extractLsb'_toNat, Nat.shiftRight_eq_div_pow]

theorem fractionOf_eq (b : Sample) : fractionOf b = b.toNat % 2 ^ 52 := by
  rw [fractionOf, BitVec.extractLsb'_toNat, Nat.shiftRight_zero]

/-- The magnitude bits are the exponent above the fraction. -/
theorem toNat_mod_eq (b : Sample) : b.toNat % 2 ^ 63 = exponentOf b * 2 ^ 52 + fractionOf b := by
  rw [exponentOf_eq, fractionOf_eq]
  omega

theorem fractionOf_lt (b : Sample) : fractionOf b < 2 ^ 52 := by
  rw [fractionOf_eq]
  omega

theorem absVal64_lt (b : Sample) : absVal64 b < 2 ^ ((exponentOf b : ℤ) - 1022) := by
  have hf := fractionOf_lt b
  rw [absVal64, significandOf, scaleOf]
  split_ifs with he
  · rw [he, show ((0 : ℕ) : ℤ) - 1022 = ((52 : ℕ) : ℤ) + -1074 by norm_num, zpow_natCast_add]
    exact mul_lt_mul_of_pos_right (Nat.cast_lt.mpr hf) (zpow_two_pos _)
  · rw [show (exponentOf b : ℤ) - 1022 = ((53 : ℕ) : ℤ) + (exponentOf b - 1075) by push_cast; ring, zpow_natCast_add]
    exact mul_lt_mul_of_pos_right (Nat.cast_lt.mpr (by omega)) (zpow_two_pos _)

theorem le_absVal64 {b : Sample} (h : exponentOf b ≠ 0) : 2 ^ ((exponentOf b : ℤ) - 1023) ≤ absVal64 b := by
  rw [absVal64, significandOf, scaleOf, if_neg h, if_neg h,
    show (exponentOf b : ℤ) - 1023 = ((52 : ℕ) : ℤ) + (exponentOf b - 1075) by push_cast; ring, zpow_natCast_add]
  exact mul_le_mul_of_nonneg_right (Nat.cast_le.mpr (by omega)) (zpow_two_pos _).le

/-- The magnitude bits order the magnitudes. -/
theorem absVal64_le_of_bits {b b' : Sample} (h : b.toNat % 2 ^ 63 ≤ b'.toNat % 2 ^ 63) : absVal64 b ≤ absVal64 b' := by
  rw [toNat_mod_eq, toNat_mod_eq] at h
  have hf := fractionOf_lt b
  have hf' := fractionOf_lt b'
  rcases lt_or_ge (exponentOf b) (exponentOf b') with he | he
  · calc absVal64 b ≤ 2 ^ ((exponentOf b : ℤ) - 1022) := (absVal64_lt b).le
      _ ≤ 2 ^ ((exponentOf b' : ℤ) - 1023) := zpow_le_zpow_right₀ (by norm_num) (by omega)
      _ ≤ absVal64 b' := le_absVal64 (by omega)
  · have he : exponentOf b = exponentOf b' := by omega
    have hff : fractionOf b ≤ fractionOf b' := by omega
    rw [absVal64, absVal64, significandOf, significandOf, scaleOf, scaleOf, he]
    refine mul_le_mul_of_nonneg_right (Nat.cast_le.mpr ?_) (zpow_two_pos _).le
    split_ifs <;> omega

/-! ### Bit 63 (R69) -/

/-- `b` with its sign flipped. -/
def flipSign (b : Sample) : Sample := b ^^^ 0x8000000000000000#64

theorem signOf_flipSign (b : Sample) : signOf (flipSign b) = !signOf b := by
  simp [signOf, flipSign]

theorem exponentOf_flipSign (b : Sample) : exponentOf (flipSign b) = exponentOf b := by
  rw [exponentOf, exponentOf, flipSign, BitVec.extractLsb'_xor]
  simp

theorem fractionOf_flipSign (b : Sample) : fractionOf (flipSign b) = fractionOf b := by
  rw [fractionOf, fractionOf, flipSign, BitVec.extractLsb'_xor]
  simp

theorem isFinite64_flipSign (b : Sample) : isFinite64 (flipSign b) = isFinite64 b := by
  rw [isFinite64, isFinite64, exponentOf_flipSign]

theorem significandOf_flipSign (b : Sample) : significandOf (flipSign b) = significandOf b := by
  rw [significandOf, significandOf, exponentOf_flipSign, fractionOf_flipSign]

theorem scaleOf_flipSign (b : Sample) : scaleOf (flipSign b) = scaleOf b := by
  rw [scaleOf, scaleOf, exponentOf_flipSign]

theorem val64_flipSign (b : Sample) : val64 (flipSign b) = -val64 b := by
  rw [val64, val64, signOf_flipSign, significandOf_flipSign, scaleOf_flipSign]
  cases signOf b <;> simp

theorem fmulc_flipSign (b : Sample) (C : ℕ) : fmulc (flipSign b) C = { fmulc b C with neg := !(fmulc b C).neg } := by
  rw [fmulc, significandOf_flipSign, scaleOf_flipSign, signOf_flipSign]
  rfl

theorem Product.trunc_flip (p : Product) : Product.trunc { p with neg := !p.neg } = -p.trunc := by
  rw [Product.trunc, Product.trunc, Product.signed, Product.signed]
  cases p.neg <;> simp

theorem norm16_flipSign {b : Sample} (h : |(fmulc b 32767).value| < 32768) :
    (norm16 (flipSign b)).toInt = -(norm16 b).toInt := by
  have hle := (truncGoesTowardZero (fmulc b 32767)).1
  have hbound := abs_lt.mp (hle.trans_lt h)
  have hlo : -32768 < (fmulc b 32767).trunc := by exact_mod_cast hbound.1
  have hhi : (fmulc b 32767).trunc < 32768 := by exact_mod_cast hbound.2
  have hc := clamp_cases (fmulc b 32767).trunc (-32768) 32767
  have hc' := clamp_cases (-(fmulc b 32767).trunc) (-32768) 32767
  rw [norm16_toInt, norm16_toInt, fmulc_flipSign, Product.trunc_flip]
  omega

/-- Settles O19: flipping bit 63 negates the truncated product, which the clamp leaves alone inside its bounds. -/
theorem norm16IsOddBelowTheClamp : Obligations.Norm16IsOddBelowTheClamp := fun _ _ => norm16_flipSign

/-! ### Small samples (R67) -/

/-- Settles O18: the sample lies between the last pattern below the threshold and its negative, and both give 0. -/
theorem smallSamplesGiveZero : Obligations.SmallSamplesGiveZero := by
  intro b h
  have hlast : |val64 b| ≤ val64 0x3F0000200040007F#64 := by
    have hpos : val64 0x3F0000200040007F#64 = absVal64 0x3F0000200040007F#64 := by
      rw [val64_eq, show signOf 0x3F0000200040007F#64 = false by decide, signMul_false]
    rw [hpos, abs_val64]
    refine absVal64_le_of_bits (Nat.le_of_lt_succ (h.trans_eq ?_))
    decide
  have hhi := norm16_le_norm16 (abs_le.mp hlast).2
  have hlo := norm16_le_norm16 ((val64_flipSign _).trans_le (abs_le.mp hlast).1)
  have hzero : (norm16 0x3F0000200040007F#64).toInt = 0 ∧ (norm16 (flipSign 0x3F0000200040007F#64)).toInt = 0 := by
    decide
  have hnorm : norm16 b = 0#16 := BitVec.eq_of_toInt_eq (by rw [BitVec.toInt_zero]; omega)
  refine ⟨hnorm, ?_⟩
  rw [ulawByte, hnorm]
  decide

/-! ### Every value is reached (R68) -/

/-- The non-negative sample with the exponent and fraction given. -/
def sampleOf (e f : ℕ) : Sample := BitVec.ofNat 64 (e * 2 ^ 52 + f)

section SampleOf

variable {e f : ℕ} (he : e < 2 ^ 11) (hf : f < 2 ^ 52)

include he hf

theorem toNat_sampleOf : (sampleOf e f).toNat = e * 2 ^ 52 + f := by
  rw [sampleOf, BitVec.toNat_ofNat, Nat.mod_eq_of_lt (by omega)]

theorem exponentOf_sampleOf : exponentOf (sampleOf e f) = e := by
  rw [exponentOf_eq, toNat_sampleOf he hf]
  omega

theorem fractionOf_sampleOf : fractionOf (sampleOf e f) = f := by
  rw [fractionOf_eq, toNat_sampleOf he hf]
  omega

theorem signOf_sampleOf : signOf (sampleOf e f) = false := by
  rw [signOf, ← BitVec.msb_eq_getLsbD_last, BitVec.msb_eq_decide, toNat_sampleOf he hf, decide_eq_false_iff_not]
  omega

end SampleOf

/-- A sample just below `t`, within a unit of its last place, at the normal exponents around 1. -/
theorem exists_sample_near {t : ℚ} {k : ℤ} (hlo : 2 ^ (52 + k) ≤ t) (hhi : t < 2 ^ (53 + k)) (hk : -1000 ≤ k)
    (hk' : k ≤ 0) :
    ∃ b : Sample, isFinite64 b = true ∧ signOf b = false ∧ absVal64 b ≤ t ∧ t < absVal64 b + 2 ^ k := by
  have hpos := zpow_two_pos k
  have ht : 0 ≤ t / 2 ^ k := div_nonneg ((zpow_two_pos _).le.trans hlo) hpos.le
  have hM : 2 ^ 52 ≤ ⌊t / 2 ^ k⌋₊ := by
    rw [Nat.le_floor_iff ht, le_div_iff₀ hpos, ← zpow_natCast_add]
    exact hlo
  have hM' : ⌊t / 2 ^ k⌋₊ < 2 ^ 53 := by
    rw [Nat.floor_lt ht, div_lt_iff₀ hpos, ← zpow_natCast_add]
    exact hhi
  have he : (k + 1075).toNat < 2 ^ 11 := by omega
  have hf : ⌊t / 2 ^ k⌋₊ - 2 ^ 52 < 2 ^ 52 := by omega
  have hne : (k + 1075).toNat ≠ 0 := by omega
  have habs : absVal64 (sampleOf (k + 1075).toNat (⌊t / 2 ^ k⌋₊ - 2 ^ 52)) = ⌊t / 2 ^ k⌋₊ * 2 ^ k := by
    rw [absVal64, significandOf, scaleOf, exponentOf_sampleOf he hf, fractionOf_sampleOf he hf, if_neg hne, if_neg hne,
      Nat.add_sub_cancel' hM, show (((k + 1075).toNat : ℕ) : ℤ) - 1075 = k by omega]
  refine ⟨sampleOf (k + 1075).toNat (⌊t / 2 ^ k⌋₊ - 2 ^ 52), ?_, signOf_sampleOf he hf, ?_, ?_⟩
  · rw [isFinite64, exponentOf_sampleOf he hf, bne_iff_ne]
    omega
  · rw [habs, ← le_div_iff₀ hpos]
    exact Nat.floor_le ht
  · rw [habs, ← add_one_mul, ← div_lt_iff₀ hpos]
    exact Nat.lt_floor_add_one _

/-- A sample whose product lies between `n` and `n + 1/2`, exactly and so after rounding. -/
theorem exists_sample_of_product {n : ℕ} (hn : n ≤ 32767) :
    ∃ b : Sample, isFinite64 b = true ∧ (fmulc b 32767).neg = false
      ∧ (n : ℚ) ≤ (fmulc b 32767).absValue ∧ (fmulc b 32767).absValue ≤ n + 1 / 2 := by
  have hn' : (n : ℚ) ≤ 32767 := by exact_mod_cast hn
  have hn0 : (0 : ℚ) ≤ n := n.cast_nonneg
  obtain ⟨t, ht⟩ : ∃ t : ℚ, t * 32767 = n + 1 / 2 := ⟨(n + 1 / 2) / 32767, by norm_num⟩
  have htlo : (2 : ℚ) ^ (-16 : ℤ) ≤ t := by norm_num; linarith
  have hthi : t < (2 : ℚ) ^ (1 : ℤ) := by norm_num; linarith
  obtain ⟨k, hlo, hhi⟩ := exists_units ((zpow_two_pos _).trans_le htlo)
  have hk : -16 < 53 + k := (zpow_lt_zpow_iff_right₀ (by norm_num)).mp (htlo.trans_lt hhi)
  have hk' : 52 + k < 1 := (zpow_lt_zpow_iff_right₀ (by norm_num)).mp (hlo.trans_lt hthi)
  obtain ⟨b, hfin, hsign, hle, hlt⟩ := exists_sample_near hlo hhi (by omega) (by omega)
  have hunit : (2 : ℚ) ^ k ≤ 2 ^ (-52 : ℤ) := zpow_le_zpow_right₀ (by norm_num) (by omega)
  norm_num at hunit
  refine ⟨b, hfin, hsign, ?_, ?_⟩
  · have hshort := round53_of_short (n := n) (by omega) 0
    rw [zpow_zero, mul_one] at hshort
    rw [fmulc_absValue, ← hshort]
    refine round53_monotoneOn hn0 (mul_nonneg (absVal64_nonneg b) (Nat.cast_nonneg _)) ?_
    push_cast
    linarith
  · have hshort := round53_of_short (n := 2 * n + 1) (by omega) (-1)
    rw [show ((2 * n + 1 : ℕ) : ℚ) * 2 ^ (-1 : ℤ) = n + 1 / 2 by push_cast; ring] at hshort
    rw [fmulc_absValue, ← hshort]
    refine round53_monotoneOn (mul_nonneg (absVal64_nonneg b) (Nat.cast_nonneg _)) (by simp; linarith) ?_
    push_cast
    linarith

/-- Every value from 0 to 32767 is the image of a sample below the clamp. -/
theorem exists_norm16_eq {n : ℕ} (hn : n ≤ 32767) :
    ∃ b : Sample, isFinite64 b = true ∧ |(fmulc b 32767).value| < 32768 ∧ (norm16 b).toInt = n := by
  obtain ⟨b, hfin, hneg, hlo, hhi⟩ := exists_sample_of_product hn
  have hn' : (n : ℚ) ≤ 32767 := by exact_mod_cast hn
  have habs : |(fmulc b 32767).value| < 32768 := by
    rw [Product.abs_value]
    linarith
  have hfloor : ⌊(fmulc b 32767).absValue⌋₊ = n := by
    rw [Nat.floor_eq_iff (Product.absValue_nonneg _)]
    exact ⟨hlo, by linarith⟩
  refine ⟨b, hfin, habs, ?_⟩
  rw [(norm16Saturates b).2.2 habs, Product.trunc_eq, hfloor, Product.signed, hneg]
  rfl

/-- Settles O20: from 0 up by a sample just below the middle of the value's products, below zero by its negative, and
-32768 by the clamp. -/
theorem norm16ReachesEveryValue : Obligations.Norm16ReachesEveryValue := by
  intro v
  have hb := pcm16_bounds v
  rcases lt_or_ge v.toInt 0 with hv | hv
  · rcases hb.1.eq_or_lt with hmin | hmin
    · have hclamped : isFinite64 0xC000000000000000#64 = true ∧ (norm16 0xC000000000000000#64).toInt = -32768 := by decide
      exact ⟨_, hclamped.1, BitVec.eq_of_toInt_eq (hclamped.2.trans hmin)⟩
    · obtain ⟨b, hfin, habs, hn⟩ := exists_norm16_eq (n := (-v.toInt).toNat) (by omega)
      refine ⟨flipSign b, (isFinite64_flipSign b).trans hfin, BitVec.eq_of_toInt_eq ?_⟩
      rw [norm16_flipSign habs, hn]
      omega
  · obtain ⟨b, hfin, -, hn⟩ := exists_norm16_eq (n := v.toInt.toNat) (by omega)
    exact ⟨b, hfin, BitVec.eq_of_toInt_eq (by omega)⟩

end Sys2Proof.Machine
end
